-- ==== Sys2Proof/Word.lean ====
section
/-! DEFINITION. The machine's word types, by the widths of spec/10_state.md and spec/30_encoding.md R71.
All values are unsigned (spec/00_scope.md R12). -/

namespace Sys2Proof

/-- An 8-bit value: a memory byte, a general register, a timer, the field `KK`. -/
abbrev Byte := BitVec 8

/-- A 16-bit value: an instruction word, the pc, `I`, a stack entry. -/
abbrev Word := BitVec 16

/-- A 4-bit field: `G`, `X`, `Y` or `N` of an instruction word (spec/30_encoding.md R71). -/
abbrev Nibble := BitVec 4

/-- The 12-bit field `NNN` (spec/30_encoding.md R71). -/
abbrev Addr12 := BitVec 12

end Sys2Proof
end

