-- ==== Sys2Proof/Config.lean ====
section
/-! DEFINITION. What the implementation fixes or the spec leaves free. The sizes of spec/00_scope.md R8 are the
types of `State`'s fields and the numerals of the checks; the one value with no law is the random byte. -/

namespace Sys2Proof

/-- DESIGN CHOICE (log entry 2). The random byte of the `n`-th execution of Cxkk since `State.reset` (RESET does not
start the count again): a free input with no law (spec/00_scope.md R10, spec/92_eei_decisions.md D26). It has no body,
so a claim holds for every sequence of draws. -/
opaque Config.rnd : Nat → Byte

end Sys2Proof
end

