-- ==== Sys2Proof/Machine/Flags.lean ====
section
/-! DEFINITION. The flag computations: what VF holds after 8xy4, 8xy5, 8xy6, 8xy7, 8xyE and Dxyn
(spec/10_state.md R22, spec/43_alu.md). A flag is 1 or 0, on unbounded integers (spec/00_scope.md R17). -/

namespace Sys2Proof.Machine

/-- A flag's byte. -/
def flagByte (b : Bool) : Byte := if b then 1 else 0

/-- Carry of `a + b`: 1 exactly when the unsigned sum exceeds 255 (R137). -/
def carryFlag (a b : Byte) : Byte := flagByte (decide (255 < a.toNat + b.toNat))

/-- NOT borrow of `a - b`: 1 exactly when `a >= b` (R138, R140). -/
def notBorrowFlag (a b : Byte) : Byte := flagByte (decide (b.toNat ≤ a.toNat))

/-- The bit a right shift by one loses, bit 0 (R139). -/
def shiftedOutRight (a : Byte) : Byte := flagByte (a.getLsbD 0)

/-- The bit a left shift by one loses, bit 7 (R141). -/
def shiftedOutLeft (a : Byte) : Byte := flagByte (a.getLsbD 7)

end Sys2Proof.Machine
end

