-- ==== Sys2Proof/Syntax.lean ====
section
/-! DEFINITION. The instructions: one constructor for each of the 38 rows of spec/opcode_table.json
(spec/30_encoding.md R82). Fields keep the names of R71; the bits an instruction ignores are kept as a field, so
that no bit of a word is lost (log entry 16). -/

namespace Sys2Proof

/-- The 34 instructions of spec/30_encoding.md R82 in the table's order, then the UNRECOGNIZED words of the four
groups that have any (R80). -/
inductive Instr where
  /-- 00E0 CLS, R160. -/
  | cls
  /-- 00EE RET, R110. -/
  | ret
  /-- 1nnn JP nnn, R111. -/
  | jp (nnn : Addr12)
  /-- 2nnn CALL nnn, R112. -/
  | call (nnn : Addr12)
  /-- 3xkk SE Vx, kk, R121. -/
  | seImm (x : Nibble) (kk : Byte)
  /-- 4xkk SNE Vx, kk, R122. -/
  | sneImm (x : Nibble) (kk : Byte)
  /-- 5xyn SE Vx, Vy, R123; `n` is not decoded (R78). -/
  | seReg (x y n : Nibble)
  /-- 6xkk LD Vx, kk, R131. -/
  | ldImm (x : Nibble) (kk : Byte)
  /-- 7xkk ADD Vx, kk, R132. -/
  | addImm (x : Nibble) (kk : Byte)
  /-- 8xy0 LD Vx, Vy, R133. -/
  | ldReg (x y : Nibble)
  /-- 8xy1 OR Vx, Vy, R134. -/
  | orReg (x y : Nibble)
  /-- 8xy2 AND Vx, Vy, R135. -/
  | andReg (x y : Nibble)
  /-- 8xy3 XOR Vx, Vy, R136. -/
  | xorReg (x y : Nibble)
  /-- 8xy4 ADD Vx, Vy, R137. -/
  | addReg (x y : Nibble)
  /-- 8xy5 SUB Vx, Vy, R138. -/
  | subReg (x y : Nibble)
  /-- 8xy6 SHR Vx, R139; `y` is ignored. -/
  | shr (x y : Nibble)
  /-- 8xy7 SUBN Vx, Vy, R140. -/
  | subnReg (x y : Nibble)
  /-- 8xyE SHL Vx, R141; `y` is ignored. -/
  | shl (x y : Nibble)
  /-- 9xyn SNE Vx, Vy, R124; `n` is not decoded (R78). -/
  | sneReg (x y n : Nibble)
  /-- Annn LD I, nnn, R150. -/
  | ldI (nnn : Addr12)
  /-- Bnnn JP V0, nnn, R113. -/
  | jpV0 (nnn : Addr12)
  /-- Cxkk RND Vx, kk, R142. -/
  | rnd (x : Nibble) (kk : Byte)
  /-- Dxyn DRW Vx, Vy, n, R161. -/
  | drw (x y n : Nibble)
  /-- Ex9E SKP Vx, R125. -/
  | skp (x : Nibble)
  /-- ExA1 SKNP Vx, R126. -/
  | sknp (x : Nibble)
  /-- Fx07 LD Vx, DT, R170. -/
  | ldDT (x : Nibble)
  /-- Fx0A LD Vx, K, R171. -/
  | ldKey (x : Nibble)
  /-- Fx15 LD DT, Vx, R172. -/
  | setDT (x : Nibble)
  /-- Fx18 LD ST, Vx, R173. -/
  | setST (x : Nibble)
  /-- Fx1E ADD I, Vx, R151. -/
  | addI (x : Nibble)
  /-- Fx29 LD F, Vx, R152. -/
  | ldF (x : Nibble)
  /-- Fx33 LD B, Vx, R153. -/
  | ldB (x : Nibble)
  /-- Fx55 LD [I], Vx, R154. -/
  | store (x : Nibble)
  /-- Fx65 LD Vx, [I], R155. -/
  | load (x : Nibble)
  /-- An UNRECOGNIZED word of group 0x0 (R76, R97). -/
  | unrec0 (nnn : Addr12)
  /-- An UNRECOGNIZED word of group 0x8 (R75, R97, R143). -/
  | unrec8 (x y n : Nibble)
  /-- An UNRECOGNIZED word of group 0xE (R77, R97). -/
  | unrecE (x : Nibble) (kk : Byte)
  /-- An UNRECOGNIZED word of group 0xF (R77, R97). -/
  | unrecF (x : Nibble) (kk : Byte)
deriving DecidableEq, Repr

end Sys2Proof
end

