-- ==== Sys2Proof/WellFormed.lean ====
section
/-! DEFINITION. When an `Instr` is one the decoder can give. The operand fields are bounded by their types; what is
left to check is that an UNRECOGNIZED word of groups 0, 8, E and F is not an instruction's word
(spec/30_encoding.md R75, R76, R77, R80). -/

namespace Sys2Proof

/-- The values of `NNN` that select an instruction in group 0x0 (R76). -/
def group0Codes : List Addr12 := [0x0E0#12, 0x0EE#12]

/-- The values of `N` that select an instruction in group 0x8 (R75). -/
def group8Codes : List Nibble := [0x0#4, 0x1#4, 0x2#4, 0x3#4, 0x4#4, 0x5#4, 0x6#4, 0x7#4, 0xE#4]

/-- The values of `KK` that select an instruction in group 0xE (R77). -/
def groupECodes : List Byte := [0x9E#8, 0xA1#8]

/-- The values of `KK` that select an instruction in group 0xF (R77). -/
def groupFCodes : List Byte := [0x07#8, 0x0A#8, 0x15#8, 0x18#8, 0x1E#8, 0x29#8, 0x33#8, 0x55#8, 0x65#8]

/-- Well-formedness: an UNRECOGNIZED word's selecting field is none of its group's instruction codes. -/
def Instr.wf : Instr → Bool
  | .cls | .ret | .jp _ | .call _ | .seImm _ _ | .sneImm _ _ | .seReg _ _ _ | .ldImm _ _ | .addImm _ _ => true
  | .ldReg _ _ | .orReg _ _ | .andReg _ _ | .xorReg _ _ | .addReg _ _ | .subReg _ _ | .shr _ _ => true
  | .subnReg _ _ | .shl _ _ | .sneReg _ _ _ | .ldI _ | .jpV0 _ | .rnd _ _ | .drw _ _ _ => true
  | .skp _ | .sknp _ | .ldDT _ | .ldKey _ | .setDT _ | .setST _ | .addI _ | .ldF _ => true
  | .ldB _ | .store _ | .load _ => true
  | .unrec0 nnn => !group0Codes.contains nnn
  | .unrec8 _ _ n => !group8Codes.contains n
  | .unrecE _ kk => !groupECodes.contains kk
  | .unrecF _ kk => !groupFCodes.contains kk

/-- `Instr.wf` as a proposition. -/
abbrev Instr.WellFormed (i : Instr) : Prop := i.wf = true

end Sys2Proof
end

