-- ==== Sys2Proof/Decode.lean ====
section
/-! DEFINITION. The decoder, a total function of the 16-bit word (spec/30_encoding.md R73 to R78), the byte-level
decoder over it (R70: big-endian, exactly two bytes), and the encoder written from the same table (R82). -/

namespace Sys2Proof

/-- `G = w[15:12]` (R71). -/
def fieldG (w : Word) : Nibble := w.extractLsb' 12 4
/-- `X = w[11:8]` (R71). -/
def fieldX (w : Word) : Nibble := w.extractLsb' 8 4
/-- `Y = w[7:4]` (R71). -/
def fieldY (w : Word) : Nibble := w.extractLsb' 4 4
/-- `N = w[3:0]` (R71). -/
def fieldN (w : Word) : Nibble := w.extractLsb' 0 4
/-- `KK = w[7:0]` (R71). -/
def fieldKK (w : Word) : Byte := w.extractLsb' 0 8
/-- `NNN = w[11:0]` (R71). -/
def fieldNNN (w : Word) : Addr12 := w.extractLsb' 0 12

/-- Group 0x0, sub-dispatch on all of `NNN` (R76). -/
def decodeGroup0 (nnn : Addr12) : Instr :=
  if nnn = 0x0E0#12 then .cls
  else if nnn = 0x0EE#12 then .ret
  else .unrec0 nnn

/-- Group 0x8, sub-dispatch on `N` (R75). -/
def decodeGroup8 (x y n : Nibble) : Instr :=
  if n = 0x0#4 then .ldReg x y
  else if n = 0x1#4 then .orReg x y
  else if n = 0x2#4 then .andReg x y
  else if n = 0x3#4 then .xorReg x y
  else if n = 0x4#4 then .addReg x y
  else if n = 0x5#4 then .subReg x y
  else if n = 0x6#4 then .shr x y
  else if n = 0x7#4 then .subnReg x y
  else if n = 0xE#4 then .shl x y
  else .unrec8 x y n

/-- Group 0xE, sub-dispatch on `KK` (R77). -/
def decodeGroupE (x : Nibble) (kk : Byte) : Instr :=
  if kk = 0x9E#8 then .skp x
  else if kk = 0xA1#8 then .sknp x
  else .unrecE x kk

/-- Group 0xF, sub-dispatch on `KK` (R77). -/
def decodeGroupF (x : Nibble) (kk : Byte) : Instr :=
  if kk = 0x07#8 then .ldDT x
  else if kk = 0x0A#8 then .ldKey x
  else if kk = 0x15#8 then .setDT x
  else if kk = 0x18#8 then .setST x
  else if kk = 0x1E#8 then .addI x
  else if kk = 0x29#8 then .ldF x
  else if kk = 0x33#8 then .ldB x
  else if kk = 0x55#8 then .store x
  else if kk = 0x65#8 then .load x
  else .unrecF x kk

/-- The decoder (R73): the group selects first; groups 0, 8, E and F sub-dispatch (R75, R76, R77), the others do
not (R74, R78). -/
def decodeWord (w : Word) : Instr :=
  if fieldG w = 0x0#4 then decodeGroup0 (fieldNNN w)
  else if fieldG w = 0x1#4 then .jp (fieldNNN w)
  else if fieldG w = 0x2#4 then .call (fieldNNN w)
  else if fieldG w = 0x3#4 then .seImm (fieldX w) (fieldKK w)
  else if fieldG w = 0x4#4 then .sneImm (fieldX w) (fieldKK w)
  else if fieldG w = 0x5#4 then .seReg (fieldX w) (fieldY w) (fieldN w)
  else if fieldG w = 0x6#4 then .ldImm (fieldX w) (fieldKK w)
  else if fieldG w = 0x7#4 then .addImm (fieldX w) (fieldKK w)
  else if fieldG w = 0x8#4 then decodeGroup8 (fieldX w) (fieldY w) (fieldN w)
  else if fieldG w = 0x9#4 then .sneReg (fieldX w) (fieldY w) (fieldN w)
  else if fieldG w = 0xA#4 then .ldI (fieldNNN w)
  else if fieldG w = 0xB#4 then .jpV0 (fieldNNN w)
  else if fieldG w = 0xC#4 then .rnd (fieldX w) (fieldKK w)
  else if fieldG w = 0xD#4 then .drw (fieldX w) (fieldY w) (fieldN w)
  else if fieldG w = 0xE#4 then decodeGroupE (fieldX w) (fieldKK w)
  else decodeGroupF (fieldX w) (fieldKK w)

/-- Two bytes as an instruction word, the first giving bits 15..8 (spec/20_memory.md R53). -/
def wordOfBytes (hi lo : Byte) : Word := hi ++ lo

/-- The byte of a word at the lower address, bits 15..8 (spec/20_memory.md R53). -/
def wordHi (w : Word) : Byte := w.extractLsb' 8 8

/-- The byte of a word at the higher address, bits 7..0 (spec/20_memory.md R53). -/
def wordLo (w : Word) : Byte := w.extractLsb' 0 8

/-- Why a byte sequence gives no instruction: an instruction is exactly two bytes (R70, R81). -/
inductive DecodeError where
  /-- No byte is there. -/
  | noBytes
  /-- One byte is there, half of an instruction word. -/
  | halfWord
deriving DecidableEq, Repr

/-- The byte-level decoder: one instruction from the first two bytes, with the bytes after it. -/
def decode : List Byte → Except DecodeError (Instr × List Byte)
  | [] => .error .noBytes
  | [_] => .error .halfWord
  | hi :: lo :: rest => .ok (decodeWord (wordOfBytes hi lo), rest)

/-- The word of an instruction, from the patterns of R82. -/
def encode : Instr → Word
  | .cls => 0x00E0
  | .ret => 0x00EE
  | .jp nnn => 0x1#4 ++ nnn
  | .call nnn => 0x2#4 ++ nnn
  | .seImm x kk => 0x3#4 ++ x ++ kk
  | .sneImm x kk => 0x4#4 ++ x ++ kk
  | .seReg x y n => 0x5#4 ++ x ++ y ++ n
  | .ldImm x kk => 0x6#4 ++ x ++ kk
  | .addImm x kk => 0x7#4 ++ x ++ kk
  | .ldReg x y => 0x8#4 ++ x ++ y ++ 0x0#4
  | .orReg x y => 0x8#4 ++ x ++ y ++ 0x1#4
  | .andReg x y => 0x8#4 ++ x ++ y ++ 0x2#4
  | .xorReg x y => 0x8#4 ++ x ++ y ++ 0x3#4
  | .addReg x y => 0x8#4 ++ x ++ y ++ 0x4#4
  | .subReg x y => 0x8#4 ++ x ++ y ++ 0x5#4
  | .shr x y => 0x8#4 ++ x ++ y ++ 0x6#4
  | .subnReg x y => 0x8#4 ++ x ++ y ++ 0x7#4
  | .shl x y => 0x8#4 ++ x ++ y ++ 0xE#4
  | .sneReg x y n => 0x9#4 ++ x ++ y ++ n
  | .ldI nnn => 0xA#4 ++ nnn
  | .jpV0 nnn => 0xB#4 ++ nnn
  | .rnd x kk => 0xC#4 ++ x ++ kk
  | .drw x y n => 0xD#4 ++ x ++ y ++ n
  | .skp x => 0xE#4 ++ x ++ 0x9E#8
  | .sknp x => 0xE#4 ++ x ++ 0xA1#8
  | .ldDT x => 0xF#4 ++ x ++ 0x07#8
  | .ldKey x => 0xF#4 ++ x ++ 0x0A#8
  | .setDT x => 0xF#4 ++ x ++ 0x15#8
  | .setST x => 0xF#4 ++ x ++ 0x18#8
  | .addI x => 0xF#4 ++ x ++ 0x1E#8
  | .ldF x => 0xF#4 ++ x ++ 0x29#8
  | .ldB x => 0xF#4 ++ x ++ 0x33#8
  | .store x => 0xF#4 ++ x ++ 0x55#8
  | .load x => 0xF#4 ++ x ++ 0x65#8
  | .unrec0 nnn => 0x0#4 ++ nnn
  | .unrec8 x y n => 0x8#4 ++ x ++ y ++ n
  | .unrecE x kk => 0xE#4 ++ x ++ kk
  | .unrecF x kk => 0xF#4 ++ x ++ kk

/-- The instruction the decoder reads from a table row's bits `w`, `nbits` of them. With one 16-bit word an
instruction, the row's bit 0 is the word's bit 0; the word is laid out high byte first, as memory holds it. A row
longer than one instruction is none. -/
def decodeTableWord (nbits w : Nat) : Option Instr :=
  if nbits ≤ 16 then
    let word : Word := BitVec.ofNat 16 (w % 2 ^ nbits)
    match decode [wordHi word, wordLo word] with
    | .ok (i, _) => some i
    | .error _ => none
  else none

end Sys2Proof
end

