-- ==== Sys2Proof/Machine/State.lean ====
section
/-! DEFINITION. The state of CORE as plain data (spec/10_state.md R20, R36, R37), the reasons a step can stop, and
the state after RESET (R38, spec/70_reset_and_hazards.md R200). -/

namespace Sys2Proof.Machine

/-- The engine modes of R36. -/
inductive Mode where
  | run
  | waitKey
  | fault
deriving DecidableEq, Repr

/-- What `fault_code` names (spec/60_exceptions.md R181), in the order of the codes 0 to 6. -/
inductive FaultCode where
  /-- Code 0: no fault since reset. -/
  | none
  /-- Code 1: fetch with `pc > 4094`. -/
  | fetchOutOfBounds
  /-- Code 2: 2nnn with `sp = 16`. -/
  | stackOverflow
  /-- Code 3: 00EE with `sp = 0`. -/
  | stackUnderflow
  /-- Code 4: a data address above 4095, by Dxyn, Fx33, Fx55 or Fx65. -/
  | memoryOutOfBounds
  /-- Code 5: a write address in 0..79, by Fx33 or Fx55. -/
  | glyphRegionWrite
  /-- Code 6: Ex9E or ExA1 with `x[X] > 15`. -/
  | keyIndexOutOfRange
deriving DecidableEq, Repr

/-- The per-step outputs of R37, which the host may READ after a step (R41; log entry 7). -/
structure Outputs where
  diagValid    : Bool
  diagWord     : Word
  diagPc       : Word
  soundEvent   : Bool
  illegalEvent : Bool
deriving DecidableEq, Repr

/-- All five outputs 0, as RESET leaves them (R38) and as every STEP starts (spec/40_engine.md R90). -/
def Outputs.cleared : Outputs where
  diagValid := false
  diagWord := 0
  diagPc := 0
  soundEvent := false
  illegalEvent := false

/-- The 4096 bytes of memory (R35, spec/20_memory.md R50). `cells` lists, by rising address, the bytes that differ
from the reset contents; `glyphs` is the parameter GLYPHS (spec/00_scope.md R9), the reset contents of 0..79, which
nothing changes (log entry 1). -/
structure Memory where
  glyphs : Vector Byte 80
  cells  : List Host.Cell
deriving DecidableEq, Repr

/-- The framebuffer grid, `f[cx][cy]`, column first (R33). -/
abbrev Frame := Vector (Vector Bool 32) 64

/-- Everything R20 lists, the outputs of R37, and the model's own `draws` and `loadOpen`. -/
structure State where
  /-- Memory (R35). -/
  mem       : Memory
  /-- General registers V0..VF (R21); `x[15]` is VF (R22). -/
  x         : Vector Byte 16
  /-- The index register `I` (R25). -/
  i         : Word
  /-- The program counter (R26). -/
  pc        : Word
  /-- The return stack (R28). -/
  stack     : Vector Word 16
  /-- The stack pointer, 0..16 (R29). -/
  sp        : Fin 17
  /-- The delay timer `DT` (R30). -/
  dt        : Byte
  /-- The sound timer `ST` (R31). -/
  st        : Byte
  /-- The key-state vector (R32). -/
  key       : Vector Bool 16
  /-- The framebuffer (R33). -/
  fb        : Frame
  /-- The dirty flag, `draw_requested` (R34). -/
  dirty     : Bool
  /-- The engine mode (R36). -/
  mode      : Mode
  /-- `wait_x` (R36). -/
  waitX     : Nibble
  /-- `fault_code` (R36). -/
  faultCode : FaultCode
  /-- `fault_pc` (R36). -/
  faultPc   : Word
  /-- The last step's outputs (R37). -/
  out       : Outputs
  /-- DESIGN CHOICE (log entry 2), the model's own: how many random bytes Cxkk has drawn. -/
  draws     : Nat
  /-- DESIGN CHOICE (log entry 4), the model's own: LOAD is still admitted (spec/70_reset_and_hazards.md R204). -/
  loadOpen  : Bool
deriving DecidableEq, Repr

/-- The reasons of `Host.Outcome.fault`. CORE's own faults (spec/60_exceptions.md R181) are none of these: their
entry is a described state, so a step takes it as a next state in mode FAULT (log entry 3). -/
inductive Fault where
  /-- The host READ a memory byte at an address above 4095, which does not exist (spec/10_state.md R41). Raised by
  `hostRead` only, by no step. Safe: the model stops where the spec gives nothing. -/
  | addressOutsideMemory (address : Nat)
  /-- The host asked to READ entry `j` of the return stack, which only RET observes (spec/10_state.md R28,
  spec/90_conflicts.md C1). Raised by `hostRead` only, by no step. Safe: the model stops where the spec allows no
  read. -/
  | stackEntryUnobservable (j : Fin 16)
deriving DecidableEq, Repr

/-- The reasons of `Host.Outcome.refused`. -/
inductive Refusal where
  /-- An instruction without a meaning yet, raised by an arm of `exec`. Safe: nothing is proved of it. -/
  | notModelled (mnemonic : String)
  /-- A LOAD after the first STEP, or a second one (spec/70_reset_and_hazards.md R204). Raised by `hostOp`, by no
  step. Safe: R204 asks for the refusal. -/
  | loadNotAdmitted
deriving DecidableEq, Repr

/-- The state RESET leaves (R38, R200), for any value of the parameter GLYPHS. -/
def State.resetWith (glyphs : Vector Byte 80) : State where
  mem := { glyphs := glyphs, cells := [] }
  x := Vector.replicate 16 0
  i := 0
  pc := 0x200
  stack := Vector.replicate 16 0
  sp := 0
  dt := 0
  st := 0
  key := Vector.replicate 16 false
  fb := Vector.replicate 64 (Vector.replicate 32 false)
  dirty := false
  mode := .run
  waitX := 0
  faultCode := .none
  faultPc := 0
  out := Outputs.cleared
  draws := 0
  loadOpen := true

/-- The machine right after reset, with the default glyph table (PRESUMED, log entry 1). -/
def State.reset : State := State.resetWith defaultGlyphs

end Sys2Proof.Machine
end

