-- ==== Sys2Proof/Machine/Ops.lean ====
section
/-! DEFINITION. The named operations every meaning is built from: memory (spec/20_memory.md), registers, the
framebuffer cells (spec/10_state.md R33), and the entry into FAULT (spec/40_engine.md R96). -/

namespace Sys2Proof.Machine

/-! ## Memory -/

/-- What an address not listed reads as: the reset contents (spec/10_state.md R38), GLYPHS at 0..79 and 0
elsewhere. -/
def Memory.unlisted (m : Memory) (a : Nat) : Byte :=
  if h : a < 80 then m.glyphs[a] else 0

/-- The byte listed for address `a`, if one is. -/
def findCell (a : Nat) : List Host.Cell → Option Byte
  | [] => none
  | (b, v) :: cs => if a = b then some v else findCell a cs

/-- The list with `a` holding `v`, kept in rising order of addresses. -/
def putCell (a : Nat) (v : Byte) : List Host.Cell → List Host.Cell
  | [] => [(a, v)]
  | (b, w) :: cs =>
    if a < b then (a, v) :: (b, w) :: cs
    else if a = b then (a, v) :: cs
    else (b, w) :: putCell a v cs

/-- The list without an entry for `a`. -/
def dropCell (a : Nat) : List Host.Cell → List Host.Cell
  | [] => []
  | (b, w) :: cs => if a = b then cs else (b, w) :: dropCell a cs

/-- `MemRead(a, 1)` (spec/00_scope.md R15). It is defined by the spec for `a <= 4095`, and every meaning checks its
addresses first (spec/20_memory.md R57), so no step reads above that (log entry 10). -/
def Memory.read (m : Memory) (a : Nat) : Byte :=
  (findCell a m.cells).getD (m.unlisted a)

/-- `MemWrite(a, 1, v)` (spec/00_scope.md R15), keeping the canonical form: a byte equal to the reset contents is not
listed. There is no memory above 4095, so nothing changes there; no step writes there (log entry 10). -/
def Memory.write (m : Memory) (a : Nat) (v : Byte) : Memory :=
  if 4095 < a then m
  else if v = m.unlisted a then { m with cells := dropCell a m.cells }
  else { m with cells := putCell a v m.cells }

/-- The canonical form: addresses strictly rising, within 0..4095, and no byte that an unlisted address would read
as anyway. -/
abbrev Memory.wf (m : Memory) : Prop :=
  m.cells.Pairwise (fun c d => c.1 < d.1) ∧ ∀ c ∈ m.cells, c.1 ≤ 4095 ∧ c.2 ≠ m.unlisted c.1

/-! ## Registers -/

/-- `x[r]` (spec/00_scope.md R14). -/
def State.reg (s : State) (r : Nibble) : Byte := s.x[r.toNat]'r.isLt

/-- `x[r] <- v` (spec/00_scope.md R14). -/
def State.setReg (s : State) (r : Nibble) (v : Byte) : State :=
  { s with x := s.x.set r.toNat v r.isLt }

/-- `x[X] <- v`, then `x[0xF] <- f`: the flag is written last, so it survives X = 0xF (spec/40_engine.md R93.3). -/
def State.setRegFlag (s : State) (r : Nibble) (v f : Byte) : State :=
  (s.setReg r v).setReg 0xF#4 f

/-- `key[k]` (spec/00_scope.md R14). -/
def State.keyDown (s : State) (k : Nibble) : Bool := s.key[k.toNat]'k.isLt

/-- `key[k] <- b` (spec/60_exceptions.md R186). -/
def State.setKey (s : State) (k : Nibble) (b : Bool) : State :=
  { s with key := s.key.set k.toNat b k.isLt }

/-! ## Framebuffer cells -/

/-- `f[cx][cy]`; no cell exists with `cx > 63` or `cy > 31` (spec/10_state.md R33). -/
def framePixel (f : Frame) (cx cy : Nat) : Bool :=
  if h : cx < 64 ∧ cy < 32 then (f[cx]'h.1)[cy]'h.2 else false

/-- `f[cx][cy] <- f[cx][cy] XOR 1`; a cell that does not exist is skipped (spec/45_display.md R161). -/
def frameToggle (f : Frame) (cx cy : Nat) : Frame :=
  if h : cx < 64 ∧ cy < 32 then
    f.set cx ((f[cx]'h.1).set cy (!(f[cx]'h.1)[cy]'h.2) h.2) h.1
  else f

/-- Every cell 0 (spec/45_display.md R160). -/
def frameClear : Frame := Vector.replicate 64 (Vector.replicate 32 false)

/-! ## Faults -/

/-- The pc at fetch, inside a body: the advance has added 2 (spec/00_scope.md R18, spec/40_engine.md R92). DEDUCED
(log entry 5). -/
def State.fetchPc (s : State) : Word := s.pc - 2

/-- Taking a fault (spec/40_engine.md R96, spec/60_exceptions.md R183): the pc is back at `fetchPc`, the mode, the
code and `fault_pc` are set. A body checks before it writes (R93), so nothing else has to be undone. -/
def State.enterFault (s : State) (c : FaultCode) (fetchPc : Word) : State :=
  { s with pc := fetchPc, mode := .fault, faultCode := c, faultPc := fetchPc }

/-- `raise Fault(c)` in a body (spec/00_scope.md R16): the fault is taken, as a next state. -/
def raiseFault (c : FaultCode) (s : State) : Host.Outcome State Fault Refusal :=
  .next (s.enterFault c s.fetchPc)

/-- Leaving FAULT, WAIT_KEY or RUN by RESET, the only return there is from a fault (spec/60_exceptions.md R184,
spec/70_reset_and_hazards.md R200): every state element takes its reset value. The parameter GLYPHS stays, and so
does the count of draws, so that a draw after RESET is as free as one before (log entry 2). -/
def State.resetAgain (s : State) : State :=
  { State.resetWith s.mem.glyphs with draws := s.draws }

end Sys2Proof.Machine
end

