-- ==== Sys2Proof/Machine/Operands.lean ====
section
/-! DEFINITION. The operand forms: the zero-extended address literal (spec/30_encoding.md R72), the one data
addressing mode `I + i` (spec/44_index_memory.md R156) with its checks (spec/20_memory.md R57), and the skip
(spec/42_skip.md R120). -/

namespace Sys2Proof.Machine

/-- `zext_16(NNN)` (R72). -/
def zext12 (nnn : Addr12) : Word := nnn.setWidth 16

/-- `zext_16` of a byte, for the sums of R113 and R151. -/
def zext8 (b : Byte) : Word := b.setWidth 16

/-- The data address `I + k`, on unbounded integers: no address wraps (R57). -/
def State.dataAddr (s : State) (k : Nat) : Nat := s.i.toNat + k

/-- Some address of the `n` bytes from `I` is above 4095 (R57); a range of no bytes has no address. -/
def State.rangeOut (s : State) (n : Nat) : Bool := decide (0 < n ∧ 4095 < s.i.toNat + (n - 1))

/-- Some address of the `n` bytes from `I` is in 0..79 (spec/20_memory.md R55, R57). -/
def State.rangeInGlyphs (s : State) (n : Nat) : Bool := decide (0 < n ∧ s.i.toNat ≤ 79)

/-- A body that reads the `n` bytes from `I`: MemoryOutOfBounds comes before anything else (R57,
spec/60_exceptions.md R182). -/
def checkedRead (s : State) (n : Nat) (body : State) : Host.Outcome State Fault Refusal :=
  if s.rangeOut n then raiseFault .memoryOutOfBounds s else .next body

/-- A body that writes the `n` bytes from `I`: MemoryOutOfBounds, then GlyphRegionWrite, then the body (R57,
spec/60_exceptions.md R182). -/
def checkedWrite (s : State) (n : Nat) (body : State) : Host.Outcome State Fault Refusal :=
  if s.rangeOut n then raiseFault .memoryOutOfBounds s
  else if s.rangeInGlyphs n then raiseFault .glyphRegionWrite s
  else .next body

/-- A skip: taken, it adds 2 to the advanced pc (R120). -/
def State.skipIf (s : State) (taken : Bool) : State :=
  if taken then { s with pc := s.pc + 2 } else s

end Sys2Proof.Machine
end

