-- ==== Sys2Proof/Machine/Display.lean ====
section
/-! DEFINITION. The framebuffer controller: 00E0 and Dxyn (spec/45_display.md). -/

namespace Sys2Proof.Machine

/-- 00E0 CLS (R160): `dirty` is set even when the screen was clear. -/
def execCls (s : State) : Host.Outcome State Fault Refusal :=
  .next { s with fb := frameClear, dirty := true }

/-- What a sprite being drawn has made of the framebuffer, and the collision so far (R161). -/
structure Drawing where
  frame     : Frame
  collision : Bool
deriving DecidableEq, Repr

/-- One bit of a sprite row: bit `7 - c` acts on column `ox + c`, row `cy`; a cell off the grid is skipped and never
collides (R161). -/
def drawBit (row : Byte) (ox cy c : Nat) (d : Drawing) : Drawing :=
  if row.getLsbD (7 - c) && decide (ox + c ≤ 63) && decide (cy ≤ 31) then
    { frame := frameToggle d.frame (ox + c) cy
      collision := d.collision || framePixel d.frame (ox + c) cy }
  else d

/-- The first `n` bits of a sprite row, from the leftmost (R161). -/
def drawBits (row : Byte) (ox cy : Nat) (d : Drawing) : Nat → Drawing
  | 0 => d
  | n + 1 => drawBit row ox cy n (drawBits row ox cy d n)

/-- The first `n` rows of the sprite at `I`, from the top, at origin `(ox, oy)` (R161). -/
def drawRows (s : State) (ox oy : Nat) : Nat → Drawing
  | 0 => { frame := s.fb, collision := false }
  | n + 1 => drawBits (s.mem.read (s.dataAddr n)) ox (oy + n) (drawRows s ox oy n) 8

/-- Dxyn DRW Vx, Vy, n (R161): the origin is read before VF is written, off-grid cells are skipped, `dirty` is set
whether or not a cell changed. -/
def execDrw (x y n : Nibble) (s : State) : Host.Outcome State Fault Refusal :=
  let d := drawRows s (s.reg x).toNat (s.reg y).toNat n.toNat
  checkedRead s n.toNat ({ s with fb := d.frame, dirty := true }.setReg 0xF#4 (flagByte d.collision))

end Sys2Proof.Machine
end

