-- ==== Sys2Proof/Machine/Flow.lean ====
section
/-! DEFINITION. Control transfer: 00EE, 1nnn, 2nnn, Bnnn (spec/41_flow.md). Each body runs after the advance. -/

namespace Sys2Proof.Machine

/-- 00EE RET (R110). The 16-bit sum does not wrap for an entry a CALL pushed (log entry 6). -/
def execRet (s : State) : Host.Outcome State Fault Refusal :=
  if s.sp.val = 0 then raiseFault .stackUnderflow s
  else
    .next { s with
      sp := ⟨s.sp.val - 1, by omega⟩
      pc := s.stack[s.sp.val - 1]'(by omega) + 2 }

/-- 1nnn JP nnn (R111). -/
def execJp (nnn : Addr12) (s : State) : Host.Outcome State Fault Refusal :=
  .next { s with pc := zext12 nnn }

/-- 2nnn CALL nnn (R112): the CALL's own address is pushed. -/
def execCall (nnn : Addr12) (s : State) : Host.Outcome State Fault Refusal :=
  if h : s.sp.val < 16 then
    .next { s with
      stack := s.stack.set s.sp.val s.fetchPc h
      sp := ⟨s.sp.val + 1, by omega⟩
      pc := zext12 nnn }
  else raiseFault .stackOverflow s

/-- Bnnn JP V0, nnn (R113): the sum is at most 0x10FE and is not reduced to 12 bits. -/
def execJpV0 (nnn : Addr12) (s : State) : Host.Outcome State Fault Refusal :=
  .next { s with pc := zext12 nnn + zext8 (s.reg 0#4) }

end Sys2Proof.Machine
end

