-- ==== Sys2Proof/Machine/IndexMemory.lean ====
section
/-! DEFINITION. The index register and memory transfers: Annn, Fx1E, Fx29, Fx33, Fx55, Fx65
(spec/44_index_memory.md). No instruction here changes `I` as a side effect (R156). -/

namespace Sys2Proof.Machine

/-- Annn LD I, nnn (R150). -/
def execLdI (nnn : Addr12) (s : State) : Host.Outcome State Fault Refusal :=
  .next { s with i := zext12 nnn }

/-- Fx1E ADD I, Vx (R151): mod 2^16, no flag. -/
def execAddI (x : Nibble) (s : State) : Host.Outcome State Fault Refusal :=
  .next { s with i := s.i + zext8 (s.reg x) }

/-- Fx29 LD F, Vx (R152): at most 1275, no mask. -/
def execLdF (x : Nibble) (s : State) : Host.Outcome State Fault Refusal :=
  .next { s with i := zext8 (s.reg x) * 5 }

/-- The decimal digits of a byte, hundreds, tens and ones (R153). -/
def bcdHundreds (v : Byte) : Byte := BitVec.ofNat 8 (v.toNat / 100)
/-- The tens digit (R153). -/
def bcdTens (v : Byte) : Byte := BitVec.ofNat 8 (v.toNat / 10 % 10)
/-- The ones digit (R153). -/
def bcdOnes (v : Byte) : Byte := BitVec.ofNat 8 (v.toNat % 10)

/-- Fx33 LD B, Vx (R153): hundreds at the lowest address. -/
def execLdB (x : Nibble) (s : State) : Host.Outcome State Fault Refusal :=
  checkedWrite s 3 { s with
    mem := ((s.mem.write (s.dataAddr 0) (bcdHundreds (s.reg x))).write
      (s.dataAddr 1) (bcdTens (s.reg x))).write (s.dataAddr 2) (bcdOnes (s.reg x)) }

/-- Memory after `x[0]`..`x[n-1]` are stored from `I`, in order (R154). -/
def storeRegs (s : State) : Nat → Memory
  | 0 => s.mem
  | n + 1 => (storeRegs s n).write (s.dataAddr n) (s.reg (BitVec.ofNat 4 n))

/-- Fx55 LD [I], Vx (R154): X + 1 registers, inclusive. -/
def execStore (x : Nibble) (s : State) : Host.Outcome State Fault Refusal :=
  checkedWrite s (x.toNat + 1) { s with mem := storeRegs s (x.toNat + 1) }

/-- The state after `x[0]`..`x[n-1]` are loaded from `I`, in order (R155). -/
def loadRegs (s : State) : Nat → State
  | 0 => s
  | n + 1 => (loadRegs s n).setReg (BitVec.ofNat 4 n) (s.mem.read (s.dataAddr n))

/-- Fx65 LD Vx, [I] (R155): X + 1 registers, inclusive; the glyph region may be read. -/
def execLoad (x : Nibble) (s : State) : Host.Outcome State Fault Refusal :=
  checkedRead s (x.toNat + 1) (loadRegs s (x.toNat + 1))

end Sys2Proof.Machine
end

