-- ==== Sys2Proof/Machine/Skip.lean ====
section
/-! DEFINITION. Conditional skips: 3xkk, 4xkk, 5xyn, 9xyn, Ex9E, ExA1 (spec/42_skip.md). -/

namespace Sys2Proof.Machine

/-- 3xkk SE Vx, kk (R121). -/
def execSeImm (x : Nibble) (kk : Byte) (s : State) : Host.Outcome State Fault Refusal :=
  .next (s.skipIf (s.reg x == kk))

/-- 4xkk SNE Vx, kk (R122). -/
def execSneImm (x : Nibble) (kk : Byte) (s : State) : Host.Outcome State Fault Refusal :=
  .next (s.skipIf (s.reg x != kk))

/-- 5xyn SE Vx, Vy (R123). -/
def execSeReg (x y : Nibble) (s : State) : Host.Outcome State Fault Refusal :=
  .next (s.skipIf (s.reg x == s.reg y))

/-- 9xyn SNE Vx, Vy (R124). -/
def execSneReg (x y : Nibble) (s : State) : Host.Outcome State Fault Refusal :=
  .next (s.skipIf (s.reg x != s.reg y))

/-- The key test shared by Ex9E and ExA1: an index above 15 faults, else skip when the key's level is `level`
(R125, R126). -/
def skipOnKey (level : Bool) (x : Nibble) (s : State) : Host.Outcome State Fault Refusal :=
  if 15 < (s.reg x).toNat then raiseFault .keyIndexOutOfRange s
  else .next (s.skipIf (s.keyDown ((s.reg x).setWidth 4) == level))

/-- Ex9E SKP Vx (R125). -/
def execSkp (x : Nibble) (s : State) : Host.Outcome State Fault Refusal := skipOnKey true x s

/-- ExA1 SKNP Vx (R126). -/
def execSknp (x : Nibble) (s : State) : Host.Outcome State Fault Refusal := skipOnKey false x s

end Sys2Proof.Machine
end

