-- ==== Sys2Proof/Machine/TimersKeys.lean ====
section
/-! DEFINITION. Timers and the key wait: Fx07, Fx0A, Fx15, Fx18 (spec/46_timers_keys.md). The tick that follows a
body is the engine's (spec/40_engine.md R94). -/

namespace Sys2Proof.Machine

/-- Fx07 LD Vx, DT (R170): DT before this cycle's tick. -/
def execLdDT (x : Nibble) (s : State) : Host.Outcome State Fault Refusal :=
  .next (s.setReg x s.dt)

/-- Fx0A LD Vx, K (R171): the wait is entered; the pc stays after the Fx0A. -/
def execLdKey (x : Nibble) (s : State) : Host.Outcome State Fault Refusal :=
  .next { s with mode := .waitKey, waitX := x }

/-- Fx15 LD DT, Vx (R172). -/
def execSetDT (x : Nibble) (s : State) : Host.Outcome State Fault Refusal :=
  .next { s with dt := s.reg x }

/-- Fx18 LD ST, Vx (R173). -/
def execSetST (x : Nibble) (s : State) : Host.Outcome State Fault Refusal :=
  .next { s with st := s.reg x }

end Sys2Proof.Machine
end

