-- ==== Sys2Proof/Machine/Unrecognized.lean ====
section
/-! DEFINITION. The UNRECOGNIZED words (spec/30_encoding.md R80, spec/40_engine.md R97): the body writes nothing and
drives `illegal_event`; the advance and the tick are the engine's. -/

namespace Sys2Proof.Machine

/-- The no-op of R97. -/
def State.markIllegal (s : State) : State := { s with out := { s.out with illegalEvent := true } }

/-- A word 0nnn that is neither CLS nor RET (R76, R97). -/
def execUnrec0 (s : State) : Host.Outcome State Fault Refusal := .next s.markIllegal

/-- A word 8xyn with N in 8..D or F (R75, R97, R143). -/
def execUnrec8 (s : State) : Host.Outcome State Fault Refusal := .next s.markIllegal

/-- A word Exkk that is neither SKP nor SKNP (R77, R97). -/
def execUnrecE (s : State) : Host.Outcome State Fault Refusal := .next s.markIllegal

/-- A word Fxkk that is none of the nine instructions (R77, R97). -/
def execUnrecF (s : State) : Host.Outcome State Fault Refusal := .next s.markIllegal

end Sys2Proof.Machine
end

