-- ==== Sys2Proof/Machine/Engine.lean ====
section
/-! DEFINITION. The fetch-decode-execute cycle around a body (spec/40_engine.md R90 to R100). `stepWith` takes the
bodies as an argument, so that Step.lean only calls it. -/

namespace Sys2Proof.Machine

/-- What every STEP does first: the outputs are cleared (R90), and LOAD is no longer admitted
(spec/70_reset_and_hazards.md R204; log entry 4). -/
def State.beginStep (s : State) : State := { s with out := Outputs.cleared, loadOpen := false }

/-- The fetch check fails: the pc is above 4094 (R91). -/
def State.fetchFails (s : State) : Bool := decide (4094 < s.pc.toNat)

/-- The word at the pc, big-endian (R91, spec/20_memory.md R53). -/
def State.fetchedWord (s : State) : Word :=
  wordOfBytes (s.mem.read s.pc.toNat) (s.mem.read (s.pc.toNat + 1))

/-- The state a body starts from: diagnostics driven (R95), pc advanced by 2 (R92). -/
def State.afterFetch (s : State) : State :=
  { s with
    pc := s.pc + 2
    out := { s.out with diagValid := true, diagWord := s.fetchedWord, diagPc := s.pc } }

/-- A timer one lower, never below 0 (R94). -/
def timerDown (t : Byte) : Byte := if t = 0 then 0 else t - 1

/-- The tick (R94): ST going from 1 to 0 drives `sound_event`. -/
def State.tick (s : State) : State :=
  { s with
    dt := timerDown s.dt
    st := timerDown s.st
    out := { s.out with soundEvent := s.out.soundEvent || s.st == 1 } }

/-- The end of a cycle: the tick runs unless the body faulted or entered WAIT_KEY (R94, R100). -/
def State.endCycle (s : State) : State :=
  match s.mode with
  | .run => s.tick
  | .waitKey => s
  | .fault => s

/-- What a body answers, with the end of the cycle on a next state (R94, R100). -/
def finishCycle (o : Host.Outcome State Fault Refusal) : Host.Outcome State Fault Refusal :=
  match o with
  | .next t => .next t.endCycle
  | .fault r => .fault r
  | .refused r => .refused r

/-- One STEP (R100), with `body` for the instruction rules. -/
def stepWith (body : Instr → State → Host.Outcome State Fault Refusal) (s : State) :
    Host.Outcome State Fault Refusal :=
  let s₀ := s.beginStep
  match s₀.mode with
  | .waitKey => .next s₀
  | .fault => .next s₀
  | .run =>
    if s₀.fetchFails then .next (s₀.enterFault .fetchOutOfBounds s₀.pc)
    else finishCycle (body (decodeWord s₀.fetchedWord) s₀.afterFetch)

/-- `s` with the instruction word `w` where the next STEP fetches (log entry 15): its two bytes at the pc, high byte
first, in mode RUN. A pc that cannot be fetched (R91) is put at the entry point 0x200. -/
def State.placeWord (s : State) (w : Word) : State :=
  let pc := if s.fetchFails then 0x200 else s.pc
  { s with
    pc := pc
    mode := .run
    mem := (s.mem.write pc.toNat (wordHi w)).write (pc.toNat + 1) (wordLo w) }

end Sys2Proof.Machine
end

