-- ==== Sys2Proof/Machine/Step.lean ====
section
/-! DEFINITION. One STEP of CORE (spec/40_engine.md R100): the engine's cycle around `exec`. -/

namespace Sys2Proof.Machine

/-- One STEP. It answers a next state from every state: a fault of spec/60_exceptions.md R181 is a state in mode
FAULT (R96). -/
def step (s : State) : Host.Outcome State Fault Refusal := stepWith exec s

/-- `s` with the table row's bits `w` stored where the next STEP fetches. An instruction is one 16-bit word, so the
bits above `nbits` are 0 and there is nothing after it. -/
def State.withFetchWord (s : State) (nbits w : Nat) : State :=
  s.placeWord (BitVec.ofNat 16 (w % 2 ^ nbits))

end Sys2Proof.Machine
end

