-- ==== Sys2Proof/Machine/HostOps.lean ====
section
/-! DEFINITION. The host's operations (spec/10_state.md R40): RESET, LOAD, STEP, KEY_PRESS, KEY_RELEASE,
DIRTY_CLEAR and READ. Each is atomic and none overlaps another (R40, spec/60_exceptions.md R195). -/

namespace Sys2Proof.Machine

/-- The operations of R40 that can change the state; READ is `hostRead`. -/
inductive HostOp where
  | reset
  | load (image : List Byte)
  | step
  | keyPress (k : Nibble)
  | keyRelease (k : Nibble)
  | dirtyClear
deriving DecidableEq, Repr

/-- What an operation answers. -/
inductive HostResult where
  /-- Done, with the state after it. -/
  | done (s : State)
  /-- LOAD failed (spec/60_exceptions.md R185); the state it leaves. -/
  | loadFailure (s : State)
  /-- A STEP answered a fault of `Host.Outcome`; no step does. -/
  | fault (r : Fault)
  /-- The operation is not admitted here (spec/70_reset_and_hazards.md R204). -/
  | refused (r : Refusal)
deriving DecidableEq, Repr

/-- `mem[a + i] <- image[i]` for the whole image, in order (spec/70_reset_and_hazards.md R201). -/
def loadBytes (m : Memory) (a : Nat) : List Byte → Memory
  | [] => m
  | b :: bs => loadBytes (m.write a b) (a + 1) bs

/-- LOAD(image) (R201): refused outside its place (R204), LoadFailure for an image over 3584 bytes. A failed LOAD
changes nothing, so another image may follow (R185; log entry 4). -/
def hostLoad (s : State) (image : List Byte) : HostResult :=
  if s.loadOpen then
    if 4096 < 512 + image.length then .loadFailure s
    else .done { s with mem := loadBytes s.mem 512 image, loadOpen := false }
  else .refused .loadNotAdmitted

/-- KEY_PRESS(k) (spec/60_exceptions.md R186). -/
def State.keyPress (s : State) (k : Nibble) : State :=
  match s.mode with
  | .waitKey => { (s.setKey k true).setReg s.waitX (k.setWidth 8) with mode := .run }
  | .run => s.setKey k true
  | .fault => s.setKey k true

/-- KEY_RELEASE(k) (spec/60_exceptions.md R186). -/
def State.keyRelease (s : State) (k : Nibble) : State := s.setKey k false

/-- DIRTY_CLEAR (spec/60_exceptions.md R187). -/
def State.dirtyClear (s : State) : State := { s with dirty := false }

/-- What STEP answers, as a host result. -/
def HostResult.ofOutcome : Host.Outcome State Fault Refusal → HostResult
  | .next s => .done s
  | .fault r => .fault r
  | .refused r => .refused r

/-- One host operation (R40). -/
def hostOp (op : HostOp) (s : State) : HostResult :=
  match op with
  | .reset => .done s.resetAgain
  | .load image => hostLoad s image
  | .step => HostResult.ofOutcome (step s)
  | .keyPress k => .done (s.keyPress k)
  | .keyRelease k => .done (s.keyRelease k)
  | .dirtyClear => .done s.dirtyClear

/-- What the host may ask to READ: every state element of R20, one register, entry, key, cell or byte at a time, and
the last step's outputs (spec/10_state.md R36, R40, R41, spec/60_exceptions.md R195; log entry 21). -/
inductive ReadTarget where
  | byte (address : Nat)
  | reg (r : Nibble)
  | index
  | pc
  | stackEntry (j : Fin 16)
  | sp
  | dt
  | st
  | key (k : Nibble)
  | cell (cx : Fin 64) (cy : Fin 32)
  | dirty
  | mode
  | waitX
  | faultCode
  | faultPc
  | outputs
deriving DecidableEq, Repr

/-- What a READ returns. -/
inductive ReadValue where
  | bit (b : Bool)
  | nibble (n : Nibble)
  | byte (v : Byte)
  | word (w : Word)
  | frames (n : Fin 17)
  | mode (m : Mode)
  | code (c : BitVec 3)
  | outputs (o : Outputs)
deriving DecidableEq, Repr

/-- The 3 bits of `fault_code` (spec/60_exceptions.md R181). -/
def FaultCode.code : FaultCode → BitVec 3
  | .none => 0
  | .fetchOutOfBounds => 1
  | .stackOverflow => 2
  | .stackUnderflow => 3
  | .memoryOutOfBounds => 4
  | .glyphRegionWrite => 5
  | .keyIndexOutOfRange => 6

/-- READ (R40, R41): it returns the value and changes nothing. A byte above 4095 does not exist (log entry
20), and a stack entry is observed through RET only (R28, spec/90_conflicts.md C1; log entry 21). -/
def hostRead (t : ReadTarget) (s : State) : Except Fault ReadValue :=
  match t with
  | .byte a => if 4095 < a then .error (.addressOutsideMemory a) else .ok (.byte (s.mem.read a))
  | .reg r => .ok (.byte (s.reg r))
  | .index => .ok (.word s.i)
  | .pc => .ok (.word s.pc)
  | .stackEntry j => .error (.stackEntryUnobservable j)
  | .sp => .ok (.frames s.sp)
  | .dt => .ok (.byte s.dt)
  | .st => .ok (.byte s.st)
  | .key k => .ok (.bit (s.keyDown k))
  | .cell cx cy => .ok (.bit (framePixel s.fb cx cy))
  | .dirty => .ok (.bit s.dirty)
  | .mode => .ok (.mode s.mode)
  | .waitX => .ok (.nibble s.waitX)
  | .faultCode => .ok (.code s.faultCode.code)
  | .faultPc => .ok (.word s.faultPc)
  | .outputs => .ok (.outputs s.out)

end Sys2Proof.Machine
end

