-- ==== Sys2Proof/Safety.lean ====
section
/-! DEFINITION. The terms claims are stated in: what two states share, the invariant of the machine, when a step
faults (spec/60_exceptions.md R181, R182), which registers an instruction writes (spec/10_state.md R23), and the ends
of a run (spec/70_reset_and_hazards.md R209). -/

namespace Sys2Proof.Machine

/-! ## Frames -/

/-- The parts of the state, one for each field of `State`; memory is every byte of it, and the parameter GLYPHS
counts apart. -/
inductive Part where
  | mem
  | glyphs
  | regs
  | index
  | pc
  | stack
  | sp
  | dt
  | st
  | keys
  | fb
  | dirty
  | mode
  | waitX
  | faultCode
  | faultPc
  | outputs
  | draws
  | loadOpen
deriving DecidableEq, Repr

/-- The part is the same in both states; memory and the registers as their reads give them. -/
def Part.same (p : Part) (s t : State) : Prop :=
  match p with
  | .mem => ∀ a, t.mem.read a = s.mem.read a
  | .glyphs => t.mem.glyphs = s.mem.glyphs
  | .regs => ∀ r, t.reg r = s.reg r
  | .index => t.i = s.i
  | .pc => t.pc = s.pc
  | .stack => t.stack = s.stack
  | .sp => t.sp = s.sp
  | .dt => t.dt = s.dt
  | .st => t.st = s.st
  | .keys => ∀ k, t.keyDown k = s.keyDown k
  | .fb => t.fb = s.fb
  | .dirty => t.dirty = s.dirty
  | .mode => t.mode = s.mode
  | .waitX => t.waitX = s.waitX
  | .faultCode => t.faultCode = s.faultCode
  | .faultPc => t.faultPc = s.faultPc
  | .outputs => t.out = s.out
  | .draws => t.draws = s.draws
  | .loadOpen => t.loadOpen = s.loadOpen

/-- Everything but the named parts is the same in `t` as in `s`. -/
def SameExcept (changed : List Part) (s t : State) : Prop :=
  ∀ p : Part, p ∉ changed → p.same s t

/-! ## The invariant -/

/-- What the advance leaves of the pc when a body starts: `fetch_pc + 2` for a `fetch_pc` in 0..4094
(spec/40_engine.md R91, R92). -/
def AfterAdvance (s : State) : Prop := 2 ≤ s.pc.toNat ∧ s.pc.toNat ≤ 4096

/-- A STEP from `s` fetches and decodes the instruction `i`: the mode is RUN, the pc passes the fetch check, and the
big-endian word at the pc decodes to `i` (spec/40_engine.md R91). -/
def Fetches (s : State) (i : Instr) : Prop :=
  s.mode = .run ∧ s.pc.toNat ≤ 4094 ∧
    decodeWord (s.mem.read s.pc.toNat ++ s.mem.read (s.pc.toNat + 1)) = i

/-- `t` is the FAULT state that `s` enters with code `c` and fetch address `fetchPc` (spec/40_engine.md R96): the pc
is at the fetch address, the engine-state registers name the fault, nothing else changes. -/
def EntersFault (c : FaultCode) (fetchPc : Nat) (s t : State) : Prop :=
  t.mode = .fault ∧ t.faultCode = c ∧ t.faultPc.toNat = fetchPc ∧ t.pc.toNat = fetchPc ∧
    SameExcept [.pc, .mode, .faultCode, .faultPc] s t

/-- What holds after RESET and after every step and host operation. -/
structure Inv (s : State) : Prop where
  /-- Memory is in its canonical form. -/
  memWf : s.mem.wf
  /-- The glyph region holds GLYPHS (spec/20_memory.md R55). -/
  glyphsIntact : ∀ a, (h : a < 80) → s.mem.read a = s.mem.glyphs[a]
  /-- The largest pc any rule can write is 0x10FE (spec/10_state.md R27). -/
  pcBound : s.pc.toNat ≤ 0x10FE
  /-- A pushed return address is at most 4094 (spec/41_flow.md R110). -/
  returnsBound : ∀ j, (h : j < 16) → j < s.sp.val → s.stack[j].toNat ≤ 4094
  /-- `fault_code` is 0 exactly outside FAULT (spec/10_state.md R36). -/
  faultNamed : s.mode = .fault ↔ s.faultCode ≠ .none
  /-- In FAULT the pc is that of the faulting cycle's fetch (spec/40_engine.md R96). -/
  faultPcIsPc : s.mode = .fault → s.faultPc = s.pc
  /-- While LOAD is admitted no step has left RUN (spec/70_reset_and_hazards.md R204). -/
  loadOnlyInRun : s.loadOpen = true → s.mode = .run

/-! ## Faults and register writes, as the spec tables them -/

/-- The fault an instruction's body raises, `none` where it raises none (R181, in the order of R182). -/
def bodyFault (i : Instr) (s : State) : FaultCode :=
  match i with
  | .ret => if s.sp.val = 0 then .stackUnderflow else .none
  | .call _ => if s.sp.val = 16 then .stackOverflow else .none
  | .drw _ _ n => if 0 < n.toNat ∧ 4095 < s.i.toNat + n.toNat - 1 then .memoryOutOfBounds else .none
  | .ldB _ =>
    if 4095 < s.i.toNat + 2 then .memoryOutOfBounds
    else if s.i.toNat ≤ 79 then .glyphRegionWrite else .none
  | .store x =>
    if 4095 < s.i.toNat + x.toNat then .memoryOutOfBounds
    else if s.i.toNat ≤ 79 then .glyphRegionWrite else .none
  | .load x => if 4095 < s.i.toNat + x.toNat then .memoryOutOfBounds else .none
  | .skp x | .sknp x => if 15 < (s.reg x).toNat then .keyIndexOutOfRange else .none
  | .cls | .jp _ | .seImm _ _ | .sneImm _ _ | .seReg _ _ _ | .ldImm _ _ | .addImm _ _ => .none
  | .ldReg _ _ | .orReg _ _ | .andReg _ _ | .xorReg _ _ | .addReg _ _ | .subReg _ _ | .shr _ _ => .none
  | .subnReg _ _ | .shl _ _ | .sneReg _ _ _ | .ldI _ | .jpV0 _ | .rnd _ _ => .none
  | .ldDT _ | .ldKey _ | .setDT _ | .setST _ | .addI _ | .ldF _ => .none
  | .unrec0 _ | .unrec8 _ _ _ | .unrecE _ _ | .unrecF _ _ => .none

/-- The fault a STEP in RUN raises: the fetch check first (R182). -/
def stepFault (s : State) : FaultCode :=
  if 4094 < s.pc.toNat then .fetchOutOfBounds else bodyFault (decodeWord s.fetchedWord) s

/-- Whether the table of spec/10_state.md R23 has the instruction write `x[r]` in its cycle. -/
def writesReg (i : Instr) (r : Nibble) : Bool :=
  match i with
  | .ldImm x _ | .addImm x _ | .ldReg x _ | .orReg x _ | .andReg x _ | .xorReg x _ | .rnd x _ | .ldDT x => r == x
  | .addReg x _ | .subReg x _ | .shr x _ | .subnReg x _ | .shl x _ => r == x || r == 0xF#4
  | .drw _ _ _ => r == 0xF#4
  | .load x => decide (r.toNat ≤ x.toNat)
  | .cls | .ret | .jp _ | .call _ | .seImm _ _ | .sneImm _ _ | .seReg _ _ _ | .sneReg _ _ _ => false
  | .ldI _ | .jpV0 _ | .skp _ | .sknp _ | .ldKey _ | .setDT _ | .setST _ | .addI _ | .ldF _ => false
  | .ldB _ | .store _ => false
  | .unrec0 _ | .unrec8 _ _ _ | .unrecE _ _ | .unrecF _ _ => false

/-- The instruction is an UNRECOGNIZED word (spec/30_encoding.md R80). -/
def isUnrecognized (i : Instr) : Bool :=
  match i with
  | .unrec0 _ | .unrec8 _ _ _ | .unrecE _ _ | .unrecF _ _ => true
  | .cls | .ret | .jp _ | .call _ | .seImm _ _ | .sneImm _ _ | .seReg _ _ _ | .ldImm _ _ | .addImm _ _ => false
  | .ldReg _ _ | .orReg _ _ | .andReg _ _ | .xorReg _ _ | .addReg _ _ | .subReg _ _ | .shr _ _ => false
  | .subnReg _ _ | .shl _ _ | .sneReg _ _ _ | .ldI _ | .jpV0 _ | .rnd _ _ | .drw _ _ _ => false
  | .skp _ | .sknp _ | .ldDT _ | .ldKey _ | .setDT _ | .setST _ | .addI _ | .ldF _ => false
  | .ldB _ | .store _ | .load _ => false

/-- The sprite at `I` of height `n` drawn at `(ox, oy)` acts on cell `(cx, cy)`: the cell lies in the 8 x n box and
its bit is set, bit 7 leftmost (spec/45_display.md R161). -/
def spriteCovers (s : State) (ox oy n cx cy : Nat) : Bool :=
  decide (ox ≤ cx ∧ cx < ox + 8 ∧ oy ≤ cy ∧ cy < oy + n) &&
    (s.mem.read (s.i.toNat + (cy - oy))).getLsbD (7 - (cx - ox))

/-! ## The ends of a run (R209) -/

/-- Stopped: the word at the pc is a jump to itself. -/
def Stopped (s : State) : Prop :=
  s.mode = .run ∧ s.pc.toNat ≤ 4094 ∧ ∃ nnn, decodeWord s.fetchedWord = .jp nnn ∧ nnn.toNat = s.pc.toNat

/-- Waiting: only the host can continue the program. -/
def Waiting (s : State) : Prop := s.mode = .waitKey

/-- Faulted: a bad end. -/
def Faulted (s : State) : Prop := s.mode = .fault

end Sys2Proof.Machine
end

