-- ==== Sys2Proof/Certificates/Slice0/Obligations.lean ====
section
/-! DEFINITION. The statements for the provers. Each docstring names the rule of spec/ it formalises, or says which
of the spec's own decisions or of the log's entries it rests on. -/

open Sys2Proof Sys2Proof.Machine

/-! ## Encoding (spec/30_encoding.md) -/

/-- Every well-formed instruction is what its word decodes to, at every operand (R71, R73, R82). Bits an instruction
ignores are kept in the syntax (log entry 16), so none is dropped. -/
def Obligations.DecodeOfEncodeIsTheInstruction : Prop :=
  ∀ i : Instr, i.WellFormed → decodeWord (encode i) = i

/-- Every word decodes to a well-formed instruction, and encoding that gives the word back (R73: decoding is total;
log entry 16). -/
def Obligations.EncodeOfDecodeIsTheWord : Prop :=
  ∀ w : Word, (decodeWord w).WellFormed ∧ encode (decodeWord w) = w

/-- R74: in the ten groups without a sub-dispatch every word is the group's instruction, all lower bits operands.
R75: group 0x8 sub-dispatches on `N`, and its seven other values are UNRECOGNIZED. -/
def Obligations.PlainGroupsAndGroup8Decode : Prop :=
  (∀ nnn : Addr12, decodeWord (0x1#4 ++ nnn) = .jp nnn) ∧
  (∀ nnn : Addr12, decodeWord (0x2#4 ++ nnn) = .call nnn) ∧
  (∀ (x : Nibble) (kk : Byte), decodeWord (0x3#4 ++ x ++ kk) = .seImm x kk) ∧
  (∀ (x : Nibble) (kk : Byte), decodeWord (0x4#4 ++ x ++ kk) = .sneImm x kk) ∧
  (∀ (x : Nibble) (kk : Byte), decodeWord (0x6#4 ++ x ++ kk) = .ldImm x kk) ∧
  (∀ (x : Nibble) (kk : Byte), decodeWord (0x7#4 ++ x ++ kk) = .addImm x kk) ∧
  (∀ nnn : Addr12, decodeWord (0xA#4 ++ nnn) = .ldI nnn) ∧
  (∀ nnn : Addr12, decodeWord (0xB#4 ++ nnn) = .jpV0 nnn) ∧
  (∀ (x : Nibble) (kk : Byte), decodeWord (0xC#4 ++ x ++ kk) = .rnd x kk) ∧
  (∀ x y n : Nibble, decodeWord (0xD#4 ++ x ++ y ++ n) = .drw x y n) ∧
  (∀ x y : Nibble,
    decodeWord (0x8#4 ++ x ++ y ++ 0x0#4) = .ldReg x y ∧
    decodeWord (0x8#4 ++ x ++ y ++ 0x1#4) = .orReg x y ∧
    decodeWord (0x8#4 ++ x ++ y ++ 0x2#4) = .andReg x y ∧
    decodeWord (0x8#4 ++ x ++ y ++ 0x3#4) = .xorReg x y ∧
    decodeWord (0x8#4 ++ x ++ y ++ 0x4#4) = .addReg x y ∧
    decodeWord (0x8#4 ++ x ++ y ++ 0x5#4) = .subReg x y ∧
    decodeWord (0x8#4 ++ x ++ y ++ 0x6#4) = .shr x y ∧
    decodeWord (0x8#4 ++ x ++ y ++ 0x7#4) = .subnReg x y ∧
    decodeWord (0x8#4 ++ x ++ y ++ 0xE#4) = .shl x y ∧
    ∀ n : Nibble, n ∈ [0x8#4, 0x9#4, 0xA#4, 0xB#4, 0xC#4, 0xD#4, 0xF#4] →
      decodeWord (0x8#4 ++ x ++ y ++ n) = .unrec8 x y n)

/-- Groups 0, 5, 9, E and F: group 0 tests all 12 bits and E and F the low byte, 5 and 9 test nothing. The choice of
tested bits is the spec's own (D10, D11, D12). -/
def Obligations.OtherGroupsDispatch : Prop :=
  (decodeWord 0x00E0#16 = .cls ∧ decodeWord 0x00EE#16 = .ret ∧
    ∀ nnn : Addr12, nnn ≠ 0x0E0#12 → nnn ≠ 0x0EE#12 → decodeWord (0x0#4 ++ nnn) = .unrec0 nnn) ∧
  (∀ x y n : Nibble, decodeWord (0x5#4 ++ x ++ y ++ n) = .seReg x y n ∧
    decodeWord (0x9#4 ++ x ++ y ++ n) = .sneReg x y n) ∧
  (∀ x : Nibble, decodeWord (0xE#4 ++ x ++ 0x9E#8) = .skp x ∧ decodeWord (0xE#4 ++ x ++ 0xA1#8) = .sknp x ∧
    ∀ kk : Byte, kk ≠ 0x9E#8 → kk ≠ 0xA1#8 → decodeWord (0xE#4 ++ x ++ kk) = .unrecE x kk) ∧
  (∀ x : Nibble,
    decodeWord (0xF#4 ++ x ++ 0x07#8) = .ldDT x ∧ decodeWord (0xF#4 ++ x ++ 0x0A#8) = .ldKey x ∧
    decodeWord (0xF#4 ++ x ++ 0x15#8) = .setDT x ∧ decodeWord (0xF#4 ++ x ++ 0x18#8) = .setST x ∧
    decodeWord (0xF#4 ++ x ++ 0x1E#8) = .addI x ∧ decodeWord (0xF#4 ++ x ++ 0x29#8) = .ldF x ∧
    decodeWord (0xF#4 ++ x ++ 0x33#8) = .ldB x ∧ decodeWord (0xF#4 ++ x ++ 0x55#8) = .store x ∧
    decodeWord (0xF#4 ++ x ++ 0x65#8) = .load x ∧
    ∀ kk : Byte, kk ∉ [0x07#8, 0x0A#8, 0x15#8, 0x18#8, 0x1E#8, 0x29#8, 0x33#8, 0x55#8, 0x65#8] →
      decodeWord (0xF#4 ++ x ++ kk) = .unrecF x kk)

/-- A few of the words of spec/95_test_vectors.md, each read as the instruction it is printed beside there; the byte
decoder takes the high byte first (spec/20_memory.md R53) and refuses less than one word by name, since an instruction
is exactly two bytes (R70, R81). -/
def Obligations.SampleWordsDecode : Prop :=
  decode [0x00, 0xE0] = .ok (.cls, []) ∧ decode [0x22, 0x10, 0xF2] = .ok (.call 0x210, [0xF2]) ∧
  decode [0x43, 0x11] = .ok (.sneImm 3 0x11, []) ∧ decode [0x81, 0x24] = .ok (.addReg 1 2, []) ∧
  decode [0xA3, 0x00] = .ok (.ldI 0x300, []) ∧ decode [0xD0, 0x11] = .ok (.drw 0 1 1, []) ∧
  decode [0xE5, 0x9E] = .ok (.skp 5, []) ∧ decode [0xF0, 0x33] = .ok (.ldB 0, []) ∧
  decode [0x01, 0x23] = .ok (.unrec0 0x123, []) ∧
  decode [0x12] = .error .halfWord ∧ decode [] = .error .noBytes

/-! ## The engine (spec/40_engine.md) -/

/-- A step runs the decoded instruction: from RUN with a fetchable pc, `step` is `exec` of the word at the pc on a
state that differs only by the cleared and driven outputs (R90, R95), the pc two higher (R92) and LOAD closed (log
entry 4); a next state in RUN is ticked (R94), any other is left as it is (R100). -/
def Obligations.StepRunsTheDecodedInstruction : Prop :=
  ∀ (s : State) (i : Instr), Fetches s i → i.WellFormed ∧ ∃ s₁ : State,
    AfterAdvance s₁ ∧ s₁.pc.toNat = s.pc.toNat + 2 ∧
    s₁.out = { diagValid := true, diagWord := s.mem.read s.pc.toNat ++ s.mem.read (s.pc.toNat + 1),
               diagPc := s.pc, soundEvent := false, illegalEvent := false } ∧
    s₁.loadOpen = false ∧ s₁.mem = s.mem ∧ SameExcept [.pc, .outputs, .loadOpen] s s₁ ∧
    ((∃ t, exec i s₁ = .next t ∧ step s = .next (if t.mode = .run then t.tick else t)) ∨
     (∃ r, exec i s₁ = .fault r ∧ step s = .fault r) ∨ (∃ r, exec i s₁ = .refused r ∧ step s = .refused r))

/-- The tick (R94) after a body that left the machine in RUN takes each timer down by one if it is above zero and
drives `sound_event` exactly when ST was 1; that a cycle that faulted or entered WAIT_KEY has no tick is the spec's own
decision (D8, D18). `t` is the state
the body leaves, `u` the state the step leaves (subtraction of naturals stops at 0). -/
def Obligations.TickCountsCompletedCycles : Prop :=
  ∀ (s t : State), s.mode = .run → s.pc.toNat ≤ 4094 →
    exec (decodeWord s.fetchedWord) s.beginStep.afterFetch = .next t →
    ∃ u, step s = .next u ∧
      (t.mode = .run → u.dt.toNat = t.dt.toNat - 1 ∧ u.st.toNat = t.st.toNat - 1 ∧
        (u.out.soundEvent = true ↔ t.st = 1)) ∧
      (t.mode ≠ .run → u.dt = t.dt ∧ u.st = t.st ∧ u.out.soundEvent = false) ∧
      SameExcept [.dt, .st, .outputs] t u

/-- A pc above 4094 faults with FetchOutOfBounds (R91); the entry into FAULT, with all five outputs 0, is the spec's
own decision (D8, D30). -/
def Obligations.FetchPastTheEndFaults : Prop :=
  ∀ s : State, s.mode = .run → 4094 < s.pc.toNat →
    ∃ t, step s = .next t ∧ t.mode = .fault ∧ t.faultCode = .fetchOutOfBounds ∧ t.faultPc = s.pc ∧
      t.out = { diagValid := false, diagWord := 0, diagPc := 0, soundEvent := false, illegalEvent := false } ∧
      SameExcept [.mode, .faultCode, .faultPc, .outputs, .loadOpen] s t

/-- In WAIT_KEY and in FAULT a STEP fetches nothing, ticks nothing and leaves the five outputs 0. That a STEP does
nothing there is the spec's own decision (D18, D8); LOAD being closed by it is log entry 4. -/
def Obligations.HaltedStepsOnlyClearOutputs : Prop :=
  ∀ s : State, s.mode = .waitKey ∨ s.mode = .fault →
    ∃ t, step s = .next t ∧ t.loadOpen = false ∧
      t.out = { diagValid := false, diagWord := 0, diagPc := 0, soundEvent := false, illegalEvent := false } ∧
      SameExcept [.outputs, .loadOpen] s t

/-- Every STEP from every state answers a next state: every word decodes (R73), no word traps (R80), and a fault is a
described state (R96; the model takes it as a next state, log entry 3). -/
def Obligations.EveryStepAnswersANextState : Prop :=
  ∀ s : State, ∃ t, step s = .next t

/-- A fault is precise: when a STEP from RUN ends in FAULT, nothing has changed but the engine-state registers and
the outputs, the pc is still the faulting instruction's, and there is no sound event (R96, R183: the spec's own
decision D8). -/
def Obligations.FaultsArePrecise : Prop :=
  ∀ s t : State, s.mode = .run → step s = .next t → t.mode = .fault →
    t.pc = s.pc ∧ t.faultPc = s.pc ∧ t.faultCode ≠ .none ∧ t.out.soundEvent = false ∧
      t.out.illegalEvent = false ∧ SameExcept [.mode, .faultCode, .faultPc, .outputs, .loadOpen] s t

/-- A STEP from RUN faults exactly when, and with the code that, the table of R181 says, in the priority of R182;
`stepFault` is that table. The conditions are the spec's own decisions (D3 to D8) but for the fetch check. -/
def Obligations.FaultsExactlyAsTabled : Prop :=
  ∀ s : State, s.mode = .run → ∃ t, step s = .next t ∧
    (stepFault s = .none → t.mode ≠ .fault) ∧
    (stepFault s ≠ .none → t.mode = .fault ∧ t.faultCode = stepFault s)

/-- An UNRECOGNIZED word (unrec0, unrec8, unrecE, unrecF) is a no-op: its body only drives `illegal_event`, and its cycle keeps the advance, the tick
and the diagnostics (R97; that the log entry is `illegal_event` is the spec's own decision D30). -/
def Obligations.UnrecognizedWordIsANoOp : Prop :=
  (∀ (i : Instr) (s : State), isUnrecognized i = true →
    ∃ t, exec i s = .next t ∧ t.out = { s.out with illegalEvent := true } ∧ SameExcept [.outputs] s t) ∧
  (∀ (i : Instr) (s : State), Fetches s i → isUnrecognized i = true →
    ∃ t, step s = .next t ∧ t.pc.toNat = s.pc.toNat + 2 ∧ t.dt.toNat = s.dt.toNat - 1 ∧
      t.st.toNat = s.st.toNat - 1 ∧ t.out.illegalEvent = true ∧ t.out.diagValid = true ∧ t.out.diagPc = s.pc ∧
      t.out.diagWord = s.mem.read s.pc.toNat ++ s.mem.read (s.pc.toNat + 1) ∧
      SameExcept [.pc, .dt, .st, .outputs, .loadOpen] s t)

/-- R95: every cycle that passed the fetch check drives the diagnostics, whether it completed, faulted or entered the
wait. -/
def Obligations.DiagnosticsOfEveryFetchedCycle : Prop :=
  ∀ s : State, s.mode = .run → s.pc.toNat ≤ 4094 →
    ∃ t, step s = .next t ∧ t.out.diagValid = true ∧ t.out.diagPc = s.pc ∧
      t.out.diagWord = s.mem.read s.pc.toNat ++ s.mem.read (s.pc.toNat + 1)

/-- `illegal_event` is 1 after a STEP exactly when the STEP fetched an UNRECOGNIZED word (R37; its form is the spec's
own decision D30). -/
def Obligations.IllegalEventOnlyForUnrecognizedWords : Prop :=
  ∀ s t : State, step s = .next t →
    (t.out.illegalEvent = true ↔ ∃ i, Fetches s i ∧ isUnrecognized i = true)

/-! ## Control transfer (spec/41_flow.md) -/

/-- R111: `JP nnn` sets the pc to NNN, odd or even, and changes nothing else; it has no flags and raises nothing
itself, but after a target above 4094 the next STEP faults at its fetch. -/
def Obligations.JumpSetsThePc : Prop :=
  (∀ nnn : Addr12, decodeWord (0x1#4 ++ nnn) = .jp nnn) ∧
  (∀ (nnn : Addr12) (s : State), ∃ t, exec (.jp nnn) s = .next t ∧ t.pc.toNat = nnn.toNat ∧ SameExcept [.pc] s t) ∧
  (∀ (nnn : Addr12) (s : State), Fetches s (.jp nnn) → 4094 < nnn.toNat →
    ∃ t u, step s = .next t ∧ t.mode = .run ∧ step t = .next u ∧ u.mode = .fault ∧ u.faultCode = .fetchOutOfBounds)

/-- `JP V0, nnn` sets the pc to NNN + x[0], at most 0x10FE, and changes nothing else. That the sum is not reduced to 12
bits is the spec's own derivation (R113). -/
def Obligations.OffsetJumpAddsV0 : Prop :=
  (∀ nnn : Addr12, decodeWord (0xB#4 ++ nnn) = .jpV0 nnn) ∧
  ∀ (nnn : Addr12) (s : State), ∃ t, exec (.jpV0 nnn) s = .next t ∧
    t.pc.toNat = nnn.toNat + (s.reg 0#4).toNat ∧ t.pc.toNat ≤ 0x10FE ∧ SameExcept [.pc] s t

/-- `CALL nnn` with room on the stack pushes its own address, counts the frame and jumps; the other entries stay. The
convention is the one the spec chose (C1), and the pc of the fetch is read as the advanced pc less 2 (log entry
5). -/
def Obligations.CallPushesItsOwnAddress : Prop :=
  ∀ (nnn : Addr12) (s : State), AfterAdvance s → (hsp : s.sp.val < 16) →
    ∃ t, exec (.call nnn) s = .next t ∧ t.pc.toNat = nnn.toNat ∧ t.sp.val = s.sp.val + 1 ∧
      (t.stack[s.sp.val]).toNat + 2 = s.pc.toNat ∧
      (∀ j, (hj : j < 16) → j ≠ s.sp.val → t.stack[j] = s.stack[j]) ∧
      SameExcept [.pc, .sp, .stack] s t

/-- `RET` with a frame pops it and resumes two past the stored address; the entry stays (the spec's own decision
D31). The bound on the entry is what every CALL keeps (R110); for a larger one the sum is log entry 6. -/
def Obligations.ReturnPopsAndAddsTwo : Prop :=
  ∀ s : State, (hsp : 0 < s.sp.val) → (s.stack[s.sp.val - 1]'(by omega)).toNat ≤ 4094 →
    ∃ t, exec .ret s = .next t ∧ t.sp.val = s.sp.val - 1 ∧
      t.pc.toNat = (s.stack[s.sp.val - 1]'(by omega)).toNat + 2 ∧ SameExcept [.pc, .sp] s t

/-- CALL on a full stack, RET on an empty one, and SKP and SKNP with a key index above 15 fault and change nothing else
(the spec's own decisions D3, D4, D7, D8). -/
def Obligations.StackAndKeyLimitsFault : Prop :=
  ∀ s : State, AfterAdvance s →
    (s.sp.val = 16 → ∀ nnn : Addr12, ∃ t, exec (.call nnn) s = .next t ∧
      EntersFault .stackOverflow (s.pc.toNat - 2) s t) ∧
    (s.sp.val = 0 → ∃ t, exec .ret s = .next t ∧ EntersFault .stackUnderflow (s.pc.toNat - 2) s t) ∧
    (∀ x : Nibble, 15 < (s.reg x).toNat → ∃ t u,
      exec (.skp x) s = .next t ∧ EntersFault .keyIndexOutOfRange (s.pc.toNat - 2) s t ∧
      exec (.sknp x) s = .next u ∧ EntersFault .keyIndexOutOfRange (s.pc.toNat - 2) s u)

/-- A CALL at address A and the RET it reaches: two STEPs leave the pc at A + 2 and the stack pointer where it was
(the source's test property, which the spec derives as R115). -/
def Obligations.CallThenReturnResumesAfterTheCall : Prop :=
  ∀ (s : State) (nnn : Addr12), Fetches s (.call nnn) → s.sp.val < 16 → nnn.toNat ≤ 4094 →
    decodeWord (s.mem.read nnn.toNat ++ s.mem.read (nnn.toNat + 1)) = .ret →
    ∃ t u, step s = .next t ∧ t.pc.toNat = nnn.toNat ∧ t.sp.val = s.sp.val + 1 ∧
      step t = .next u ∧ u.pc.toNat = s.pc.toNat + 2 ∧ u.sp = s.sp

/-- A jump to itself only ticks: after a STEP the machine is stopped again, and nothing but the timers and the
outputs has changed (R209 (a), the spec's own decision D40). -/
def Obligations.SelfJumpOnlyTicks : Prop :=
  ∀ s : State, Stopped s → ∃ t, step s = .next t ∧ Stopped t ∧
    t.dt.toNat = s.dt.toNat - 1 ∧ t.st.toNat = s.st.toNat - 1 ∧ SameExcept [.dt, .st, .outputs, .loadOpen] s t

/-! ## Skips (spec/42_skip.md) -/

/-- R121, R122: `SE Vx, kk` adds 2 to the advanced pc when x[X] = KK, `SNE Vx, kk` when x[X] != KK; nothing else
changes. -/
def Obligations.SkipOnImmediate : Prop :=
  (∀ (x : Nibble) (kk : Byte), decodeWord (0x3#4 ++ x ++ kk) = .seImm x kk ∧
    decodeWord (0x4#4 ++ x ++ kk) = .sneImm x kk) ∧
  ∀ (x : Nibble) (kk : Byte) (s : State), AfterAdvance s →
    (∃ t, exec (.seImm x kk) s = .next t ∧
      t.pc.toNat = (if s.reg x = kk then s.pc.toNat + 2 else s.pc.toNat) ∧ SameExcept [.pc] s t) ∧
    (∃ t, exec (.sneImm x kk) s = .next t ∧
      t.pc.toNat = (if s.reg x = kk then s.pc.toNat else s.pc.toNat + 2) ∧ SameExcept [.pc] s t)

/-- `SE Vx, Vy` and `SNE Vx, Vy` skip on equal and on different registers, whatever N is (that N is ignored is the
spec's own decision D11). -/
def Obligations.SkipOnTwoRegisters : Prop :=
  ∀ (x y n : Nibble) (s : State), AfterAdvance s →
    (∃ t, exec (.seReg x y n) s = .next t ∧
      t.pc.toNat = (if s.reg x = s.reg y then s.pc.toNat + 2 else s.pc.toNat) ∧ SameExcept [.pc] s t) ∧
    (∃ t, exec (.sneReg x y n) s = .next t ∧
      t.pc.toNat = (if s.reg x = s.reg y then s.pc.toNat else s.pc.toNat + 2) ∧ SameExcept [.pc] s t)

/-- `SKP Vx` and `SKNP Vx` skip on the level of the key x[X] names, for x[X] at most 15 (beyond that the spec decides
a fault, D7: StackAndKeyLimitsFault). -/
def Obligations.SkipOnKeyLevel : Prop :=
  ∀ (x k : Nibble) (s : State), AfterAdvance s → (s.reg x).toNat = k.toNat →
    (∃ t, exec (.skp x) s = .next t ∧
      t.pc.toNat = (if s.keyDown k = true then s.pc.toNat + 2 else s.pc.toNat) ∧ SameExcept [.pc] s t) ∧
    (∃ t, exec (.sknp x) s = .next t ∧
      t.pc.toNat = (if s.keyDown k = true then s.pc.toNat else s.pc.toNat + 2) ∧ SameExcept [.pc] s t)

/-! ## Registers and arithmetic (spec/43_alu.md) -/

/-- R131, R133: `LD Vx, kk` writes KK to x[X], `LD Vx, Vy` copies x[Y] there; nothing else changes, VF only as the
destination. -/
def Obligations.LoadAndCopyRegister : Prop :=
  (∀ (x : Nibble) (kk : Byte), decodeWord (0x6#4 ++ x ++ kk) = .ldImm x kk) ∧
  (∀ x y : Nibble, decodeWord (0x8#4 ++ x ++ y ++ 0x0#4) = .ldReg x y) ∧
  (∀ (x : Nibble) (kk : Byte) (s : State), ∃ t, exec (.ldImm x kk) s = .next t ∧
    (∀ r, t.reg r = if r = x then kk else s.reg r) ∧ SameExcept [.regs] s t) ∧
  (∀ (x y : Nibble) (s : State), ∃ t, exec (.ldReg x y) s = .next t ∧
    (∀ r, t.reg r = if r = x then s.reg y else s.reg r) ∧ SameExcept [.regs] s t)

/-- R132: `ADD Vx, kk` writes (x[X] + KK) mod 256 to x[X] and nothing else: no carry to VF unless X = 0xF. -/
def Obligations.AddImmediateWithoutCarry : Prop :=
  (∀ (x : Nibble) (kk : Byte), decodeWord (0x7#4 ++ x ++ kk) = .addImm x kk) ∧
  ∀ (x : Nibble) (kk : Byte) (s : State), ∃ t, exec (.addImm x kk) s = .next t ∧
    (∀ r, (t.reg r).toNat = if r = x then ((s.reg x).toNat + kk.toNat) % 256 else (s.reg r).toNat) ∧
    SameExcept [.regs] s t

/-- R134, R135, R136: OR, AND and XOR of two registers, bit by bit, into x[X]; VF is unchanged unless X = 0xF. -/
def Obligations.LogicOfTwoRegisters : Prop :=
  (∀ x y : Nibble, decodeWord (0x8#4 ++ x ++ y ++ 0x1#4) = .orReg x y ∧
    decodeWord (0x8#4 ++ x ++ y ++ 0x2#4) = .andReg x y ∧ decodeWord (0x8#4 ++ x ++ y ++ 0x3#4) = .xorReg x y) ∧
  ∀ (x y : Nibble) (s : State),
    (∃ t, exec (.orReg x y) s = .next t ∧ (∀ r, r ≠ x → t.reg r = s.reg r) ∧
      (∀ b < 8, (t.reg x).getLsbD b = ((s.reg x).getLsbD b || (s.reg y).getLsbD b)) ∧ SameExcept [.regs] s t) ∧
    (∃ t, exec (.andReg x y) s = .next t ∧ (∀ r, r ≠ x → t.reg r = s.reg r) ∧
      (∀ b < 8, (t.reg x).getLsbD b = ((s.reg x).getLsbD b && (s.reg y).getLsbD b)) ∧ SameExcept [.regs] s t) ∧
    (∃ t, exec (.xorReg x y) s = .next t ∧ (∀ r, r ≠ x → t.reg r = s.reg r) ∧
      (∀ b < 8, (t.reg x).getLsbD b = ((s.reg x).getLsbD b ^^ (s.reg y).getLsbD b)) ∧ SameExcept [.regs] s t)

/-- `ADD Vx, Vy`: the sum mod 256 to x[X], then the carry to VF. That the flag wins when X = 0xF is the spec's own
decision D9. -/
def Obligations.AddRegistersWithCarry : Prop :=
  ∀ (x y : Nibble) (s : State), ∃ t, exec (.addReg x y) s = .next t ∧
    (∀ r, (t.reg r).toNat =
      if r = 0xF#4 then (if 255 < (s.reg x).toNat + (s.reg y).toNat then 1 else 0)
      else if r = x then ((s.reg x).toNat + (s.reg y).toNat) % 256 else (s.reg r).toNat) ∧
    SameExcept [.regs] s t

/-- `SUB Vx, Vy` and `SUBN Vx, Vy`: the difference mod 256 to x[X], then NOT borrow to VF, equality included. That
the flag wins when X = 0xF is the spec's own decision D9. -/
def Obligations.SubtractWithNotBorrow : Prop :=
  ∀ (x y : Nibble) (s : State),
    (∃ t, exec (.subReg x y) s = .next t ∧
      (∀ r, (t.reg r).toNat =
        if r = 0xF#4 then (if (s.reg y).toNat ≤ (s.reg x).toNat then 1 else 0)
        else if r = x then ((s.reg x).toNat + 256 - (s.reg y).toNat) % 256 else (s.reg r).toNat) ∧
      SameExcept [.regs] s t) ∧
    (∃ t, exec (.subnReg x y) s = .next t ∧
      (∀ r, (t.reg r).toNat =
        if r = 0xF#4 then (if (s.reg x).toNat ≤ (s.reg y).toNat then 1 else 0)
        else if r = x then ((s.reg y).toNat + 256 - (s.reg x).toNat) % 256 else (s.reg r).toNat) ∧
      SameExcept [.regs] s t)

/-- `SHR Vx` and `SHL Vx` shift x[X] itself by one, whatever Y is, and put the lost bit in VF. That the flag wins when
X = 0xF is the spec's own decision D9. -/
def Obligations.ShiftByOne : Prop :=
  ∀ (x y : Nibble) (s : State),
    (∃ t, exec (.shr x y) s = .next t ∧
      (∀ r, (t.reg r).toNat = if r = 0xF#4 then (s.reg x).toNat % 2
        else if r = x then (s.reg x).toNat / 2 else (s.reg r).toNat) ∧ SameExcept [.regs] s t) ∧
    (∃ t, exec (.shl x y) s = .next t ∧
      (∀ r, (t.reg r).toNat = if r = 0xF#4 then (s.reg x).toNat / 128
        else if r = x then (s.reg x).toNat * 2 % 256 else (s.reg r).toNat) ∧ SameExcept [.regs] s t)

/-- `RND Vx, kk` writes the drawn byte AND KK to x[X] and moves on to the next draw. The byte is free (D26, log entry
2): the statement holds for every value of `Config.rnd`. -/
def Obligations.RandomByteIsMasked : Prop :=
  ∀ (x : Nibble) (kk : Byte) (s : State), ∃ t, exec (.rnd x kk) s = .next t ∧
    (∀ r, r ≠ x → t.reg r = s.reg r) ∧
    (∀ b < 8, (t.reg x).getLsbD b = ((Config.rnd s.draws).getLsbD b && kk.getLsbD b)) ∧
    t.draws = s.draws + 1 ∧ SameExcept [.regs, .draws] s t

/-- The table of R23: in its cycle an instruction writes no general register but those the table gives it (`writesReg` is the
table); Fx0A's register is written by the key event that ends the wait, and by no other key event. -/
def Obligations.RegisterWritersAsTabled : Prop :=
  (∀ (i : Instr) (s t : State) (r : Nibble), exec i s = .next t → writesReg i r = false → t.reg r = s.reg r) ∧
  (∀ (s : State) (k r : Nibble),
    ((s.keyPress k).reg r =
      if s.mode = .waitKey ∧ r = s.waitX then k.setWidth 8 else s.reg r) ∧
    (s.keyRelease k).reg r = s.reg r)

/-! ## Index register and memory (spec/44_index_memory.md, spec/20_memory.md) -/

/-- R150: `LD I, nnn` sets I to NNN and changes nothing else. -/
def Obligations.LoadIndex : Prop :=
  (∀ nnn : Addr12, decodeWord (0xA#4 ++ nnn) = .ldI nnn) ∧
  ∀ (nnn : Addr12) (s : State), ∃ t, exec (.ldI nnn) s = .next t ∧ t.i.toNat = nnn.toNat ∧ SameExcept [.index] s t

/-- `ADD I, Vx` adds mod 2^16 and sets no flag; `LD F, Vx` sets I to x[X] * 5 for every x[X]. Both choices are the
spec's own decisions (D23, D25). -/
def Obligations.IndexArithmetic : Prop :=
  ∀ (x : Nibble) (s : State),
    (∃ t, exec (.addI x) s = .next t ∧ t.i.toNat = (s.i.toNat + (s.reg x).toNat) % 65536 ∧
      SameExcept [.index] s t) ∧
    (∃ t, exec (.ldF x) s = .next t ∧ t.i.toNat = (s.reg x).toNat * 5 ∧ SameExcept [.index] s t)

/-- `LD B, Vx` with its three addresses in 80..4095 stores the decimal digits, hundreds first, and changes no other
byte. The digit order is the spec's own decision D16; canonical memory is an invariant (InvariantKeptByStep). -/
def Obligations.StoreDecimalDigits : Prop :=
  ∀ (x : Nibble) (s : State), s.mem.wf → 80 ≤ s.i.toNat → s.i.toNat + 2 ≤ 4095 →
    ∃ t, exec (.ldB x) s = .next t ∧
      (t.mem.read s.i.toNat).toNat = (s.reg x).toNat / 100 ∧
      (t.mem.read (s.i.toNat + 1)).toNat = (s.reg x).toNat / 10 % 10 ∧
      (t.mem.read (s.i.toNat + 2)).toNat = (s.reg x).toNat % 10 ∧
      (∀ a, a < s.i.toNat ∨ s.i.toNat + 2 < a → t.mem.read a = s.mem.read a) ∧
      SameExcept [.mem] s t

/-- `LD [I], Vx` with its addresses in 80..4095 stores x[0]..x[X] from I, changes no other byte, and leaves I (the
spec's own decision D17). -/
def Obligations.StoreRegisters : Prop :=
  ∀ (x : Nibble) (s : State), s.mem.wf → 80 ≤ s.i.toNat → s.i.toNat + x.toNat ≤ 4095 →
    ∃ t, exec (.store x) s = .next t ∧
      (∀ k : Nibble, k.toNat ≤ x.toNat → t.mem.read (s.i.toNat + k.toNat) = s.reg k) ∧
      (∀ a, a < s.i.toNat ∨ s.i.toNat + x.toNat < a → t.mem.read a = s.mem.read a) ∧
      SameExcept [.mem] s t

/-- `LD Vx, [I]` with its addresses within memory loads x[0]..x[X] from I, the glyph region included, and leaves the
other registers and I (the spec's own decision D17). -/
def Obligations.LoadRegisters : Prop :=
  ∀ (x : Nibble) (s : State), s.i.toNat + x.toNat ≤ 4095 →
    ∃ t, exec (.load x) s = .next t ∧
      (∀ r : Nibble, t.reg r = if r.toNat ≤ x.toNat then s.mem.read (s.i.toNat + r.toNat) else s.reg r) ∧
      SameExcept [.regs] s t

/-- An address above 4095 faults Dxyn, Fx33, Fx55 and Fx65 with MemoryOutOfBounds, an address in 0..79 faults Fx33
and Fx55 with GlyphRegionWrite, and nothing is written (the spec's own decisions D5, D6, D8). -/
def Obligations.MemoryRangeFaults : Prop :=
  ∀ (x y n : Nibble) (s : State), AfterAdvance s →
    (0 < n.toNat → 4096 < s.i.toNat + n.toNat → ∃ t, exec (.drw x y n) s = .next t ∧
      EntersFault .memoryOutOfBounds (s.pc.toNat - 2) s t) ∧
    (4095 < s.i.toNat + 2 → ∃ t, exec (.ldB x) s = .next t ∧
      EntersFault .memoryOutOfBounds (s.pc.toNat - 2) s t) ∧
    (4095 < s.i.toNat + x.toNat → ∃ t, exec (.store x) s = .next t ∧
      EntersFault .memoryOutOfBounds (s.pc.toNat - 2) s t) ∧
    (4095 < s.i.toNat + x.toNat → ∃ t, exec (.load x) s = .next t ∧
      EntersFault .memoryOutOfBounds (s.pc.toNat - 2) s t) ∧
    (s.i.toNat ≤ 79 → ∃ t u, exec (.ldB x) s = .next t ∧ EntersFault .glyphRegionWrite (s.pc.toNat - 2) s t ∧
      exec (.store x) s = .next u ∧ EntersFault .glyphRegionWrite (s.pc.toNat - 2) s u)

/-- Storing registers and loading them back at the same I restores x[0]..x[X], whatever the registers held in
between; I has not moved (the spec's own decision D17). -/
def Obligations.StoreThenLoadRestoresRegisters : Prop :=
  ∀ (x : Nibble) (s t t' : State), s.mem.wf → 80 ≤ s.i.toNat → s.i.toNat + x.toNat ≤ 4095 →
    exec (.store x) s = .next t → t'.mem = t.mem → t'.i = t.i →
    ∃ u, exec (.load x) t' = .next u ∧ ∀ r : Nibble, r.toNat ≤ x.toNat → u.reg r = s.reg r

/-- No STEP and no host operation but RESET changes a byte of 0..79, and nothing ever changes the parameter GLYPHS
(R55; that a program's write faults is the spec's own decision D6). -/
def Obligations.GlyphRegionIsConstant : Prop :=
  ∀ (op : HostOp) (s t : State), (hostOp op s = .done t ∨ hostOp op s = .loadFailure t) →
    t.mem.glyphs = s.mem.glyphs ∧ (op ≠ .reset → ∀ a < 80, t.mem.read a = s.mem.read a)

/-- A STEP changes a byte of memory only by Fx33 or Fx55, and only a byte of their range, which lies in 80..4095
(R56; the bounds are the spec's own decisions D5, D6). -/
def Obligations.OnlyStoresChangeMemory : Prop :=
  ∀ (s t : State) (a : Nat), step s = .next t → t.mem.read a ≠ s.mem.read a →
    80 ≤ a ∧ a ≤ 4095 ∧ s.i.toNat ≤ a ∧
      ((∃ x, Fetches s (.ldB x) ∧ a ≤ s.i.toNat + 2) ∨ (∃ x, Fetches s (.store x) ∧ a ≤ s.i.toNat + x.toNat))

/-- A store over the next instruction is what the next STEP fetches (R59, which the spec derives): with I at the next
word, `LD [I], Vx` with X at least 1 makes the next STEP fetch x[0] : x[1]. -/
def Obligations.WrittenCodeIsFetchedNext : Prop :=
  ∀ (s : State) (x : Nibble), Fetches s (.store x) → s.mem.wf → 1 ≤ x.toNat → s.i.toNat = s.pc.toNat + 2 →
    80 ≤ s.i.toNat → s.i.toNat + x.toNat ≤ 4095 →
    ∃ t u, step s = .next t ∧ step t = .next u ∧ u.out.diagValid = true ∧
      u.out.diagPc.toNat = s.pc.toNat + 2 ∧ u.out.diagWord = s.reg 0#4 ++ s.reg 1#4

/-! ## Framebuffer (spec/45_display.md) -/

/-- CLS clears every cell and sets `dirty`, VF and all else unchanged, whatever the screen held. That no other word is
CLS is the spec's own decision D10. -/
def Obligations.ClearScreen : Prop :=
  (∀ w : Word, decodeWord w = .cls ↔ w = 0x00E0#16) ∧
  ∀ s : State, ∃ t, exec .cls s = .next t ∧
    (∀ cx cy, cx < 64 → cy < 32 → framePixel t.fb cx cy = false) ∧ t.dirty = true ∧ SameExcept [.fb, .dirty] s t

/-- DRW toggles exactly the grid cells its sprite covers, VF is 1 exactly when one of them was lit, and `dirty` is
set. Clipping, bit order, N = 0 and the flag's order are the spec's own decisions (D13, D14, D15, D9). -/
def Obligations.DrawTogglesTheSpritesCells : Prop :=
  ∀ (x y n : Nibble) (s : State), s.i.toNat + n.toNat ≤ 4096 ∨ n = 0 →
    ∃ t, exec (.drw x y n) s = .next t ∧ t.dirty = true ∧
      (∀ cx cy, cx < 64 → cy < 32 → framePixel t.fb cx cy =
        (framePixel s.fb cx cy ^^ spriteCovers s (s.reg x).toNat (s.reg y).toNat n.toNat cx cy)) ∧
      (t.reg 0xF#4 = 0 ∨ t.reg 0xF#4 = 1) ∧
      (t.reg 0xF#4 = 1 ↔ ∃ cx cy, cx < 64 ∧ cy < 32 ∧ framePixel s.fb cx cy = true ∧
        spriteCovers s (s.reg x).toNat (s.reg y).toNat n.toNat cx cy = true) ∧
      (∀ r, r ≠ 0xF#4 → t.reg r = s.reg r) ∧ SameExcept [.regs, .fb, .dirty] s t

/-- Drawing the same sprite twice at the same origin restores the framebuffer, and the second draw reports VF = 1
exactly when the first lit a cell (R162, which the spec derives). -/
def Obligations.DrawingTwiceRestoresTheFrame : Prop :=
  ∀ (x y n : Nibble) (s t : State), s.i.toNat + n.toNat ≤ 4096 ∨ n = 0 →
    exec (.drw x y n) s = .next t → t.reg x = s.reg x → t.reg y = s.reg y →
    ∃ u, exec (.drw x y n) t = .next u ∧
      (∀ cx cy, cx < 64 → cy < 32 → framePixel u.fb cx cy = framePixel s.fb cx cy) ∧
      (u.reg 0xF#4 = 1 ↔ ∃ cx cy, cx < 64 ∧ cy < 32 ∧ framePixel s.fb cx cy = false ∧ framePixel t.fb cx cy = true)

/-- A STEP changes a cell or `dirty` only by a CLS or a DRW that does not fault, and `dirty` is 1 after each of these
(R34, R162, which the spec derives; that a DRW's fault keeps nothing is its own decision D8). -/
def Obligations.OnlyClsAndDrwTouchTheScreen : Prop :=
  ∀ s t : State, step s = .next t →
    ((t.fb ≠ s.fb ∨ t.dirty ≠ s.dirty) →
      t.dirty = true ∧ t.mode ≠ .fault ∧ (Fetches s .cls ∨ ∃ x y n, Fetches s (.drw x y n))) ∧
    ((Fetches s .cls ∨ ∃ x y n, Fetches s (.drw x y n)) → t.mode ≠ .fault → t.dirty = true)

/-! ## Timers and keys (spec/46_timers_keys.md) -/

/-- R170: `LD Vx, DT` reads DT as it stands before the cycle's tick, which then takes DT one lower if it was above
0. -/
def Obligations.ReadDelayTimer : Prop :=
  (∀ x : Nibble, decodeWord (0xF#4 ++ x ++ 0x07#8) = .ldDT x) ∧
  (∀ (x : Nibble) (s : State), ∃ t, exec (.ldDT x) s = .next t ∧
    (∀ r, t.reg r = if r = x then s.dt else s.reg r) ∧ SameExcept [.regs] s t) ∧
  (∀ (x : Nibble) (s : State), Fetches s (.ldDT x) →
    ∃ t, step s = .next t ∧ t.reg x = s.dt ∧ t.dt.toNat = s.dt.toNat - 1)

/-- `LD Vx, K` enters WAIT_KEY for x[X] at once, writes no register, and its cycle does not tick; the pc stays after
the instruction (the absence of the tick is the spec's own decision D18). -/
def Obligations.KeyWaitIsEntered : Prop :=
  (∀ (x : Nibble) (s : State), ∃ t, exec (.ldKey x) s = .next t ∧ t.mode = .waitKey ∧ t.waitX = x ∧
    SameExcept [.mode, .waitX] s t) ∧
  (∀ (x : Nibble) (s : State), Fetches s (.ldKey x) →
    ∃ t, step s = .next t ∧ t.mode = .waitKey ∧ t.waitX = x ∧ t.pc.toNat = s.pc.toNat + 2 ∧
      t.out.soundEvent = false ∧ SameExcept [.mode, .waitX, .pc, .outputs, .loadOpen] s t)

/-- `LD DT, Vx` and `LD ST, Vx` set their timer, which the same cycle's tick takes one lower; `sound_event` comes from
the new ST (which the spec derives from R94). -/
def Obligations.SetTimers : Prop :=
  (∀ (x : Nibble) (s : State),
    (∃ t, exec (.setDT x) s = .next t ∧ t.dt = s.reg x ∧ SameExcept [.dt] s t) ∧
    (∃ t, exec (.setST x) s = .next t ∧ t.st = s.reg x ∧ SameExcept [.st] s t)) ∧
  (∀ (x : Nibble) (s : State),
    (Fetches s (.setDT x) → ∃ t, step s = .next t ∧ t.dt.toNat = (s.reg x).toNat - 1 ∧
      t.st.toNat = s.st.toNat - 1 ∧ (t.out.soundEvent = true ↔ s.st = 1)) ∧
    (Fetches s (.setST x) → ∃ t, step s = .next t ∧ t.st.toNat = (s.reg x).toNat - 1 ∧
      t.dt.toNat = s.dt.toNat - 1 ∧ (t.out.soundEvent = true ↔ s.reg x = 1)))

/-! ## The host's operations (spec/10_state.md R40) -/

/-- KEY_PRESS and KEY_RELEASE set the key's level; a press in WAIT_KEY also gives x[wait_x] the index and returns to
RUN, even for a key already down (the spec's own decision D18). Nothing else changes. -/
def Obligations.KeyEvents : Prop :=
  ∀ (k : Nibble) (s : State),
    (∃ t, hostOp (.keyPress k) s = .done t ∧ (∀ j, t.keyDown j = if j = k then true else s.keyDown j) ∧
      (s.mode = .waitKey → t.mode = .run ∧
        (∀ r, (t.reg r).toNat = if r = s.waitX then k.toNat else (s.reg r).toNat) ∧
        SameExcept [.keys, .regs, .mode] s t) ∧
      (s.mode ≠ .waitKey → SameExcept [.keys] s t)) ∧
    (∃ t, hostOp (.keyRelease k) s = .done t ∧ (∀ j, t.keyDown j = if j = k then false else s.keyDown j) ∧
      SameExcept [.keys] s t)

/-- DIRTY_CLEAR (R187) sets `dirty` to 0 and changes nothing else; that it may come in any mode is the spec's own
decision D39. -/
def Obligations.DirtyClear : Prop :=
  ∀ s : State, ∃ t, hostOp .dirtyClear s = .done t ∧ t.dirty = false ∧ SameExcept [.dirty] s t

/-- What RESET leaves, from any state and for any value of the parameter GLYPHS, and so what `State.reset` holds.
The values of `dirty`, the engine-state registers and the outputs are the spec's own decision D19; that memory reads
GLYPHS for every value of it is the parameter of D2; `loadOpen` and the kept `draws` are log entries 4 and 2. -/
def Obligations.ResetLeavesTheTabledState : Prop :=
  (∀ s : State, hostOp .reset s =
    .done { State.resetWith s.mem.glyphs with draws := s.draws }) ∧
  ∀ (g : Vector Byte 80) (t : State), t = State.resetWith g →
    (∀ a, (h : a < 80) → t.mem.read a = g[a]) ∧ (∀ a, 80 ≤ a → a ≤ 4095 → t.mem.read a = 0) ∧
    (∀ r, t.reg r = 0) ∧ t.i = 0 ∧ t.pc.toNat = 512 ∧ (∀ j, (h : j < 16) → t.stack[j] = 0) ∧ t.sp.val = 0 ∧
    t.dt = 0 ∧ t.st = 0 ∧ (∀ k, t.keyDown k = false) ∧
    (∀ cx cy, cx < 64 → cy < 32 → framePixel t.fb cx cy = false) ∧
    t.dirty = false ∧ t.mode = .run ∧ t.waitX = 0 ∧ t.faultCode = .none ∧ t.faultPc = 0 ∧
    t.out = { diagValid := false, diagWord := 0, diagPc := 0, soundEvent := false, illegalEvent := false } ∧
    t.loadOpen = true

/-- Where LOAD is admitted, an image that fits is copied to 512 and after and no other byte changes; an image that does
not fit fails and changes nothing (R201). The place of LOAD is the spec's own decision D22; the model's flag for it, and
that a LOAD that fails leaves it open, are log entry 4. -/
def Obligations.LoadCopiesTheImage : Prop :=
  ∀ (s : State) (image : List Byte), s.mem.wf → s.loadOpen = true →
    (512 + image.length ≤ 4096 → ∃ t, hostOp (.load image) s = .done t ∧
      (∀ k, (h : k < image.length) → t.mem.read (512 + k) = image[k]) ∧
      (∀ a, a < 512 ∨ 512 + image.length ≤ a → t.mem.read a = s.mem.read a) ∧
      SameExcept [.mem, .loadOpen] s t) ∧
    (4096 < 512 + image.length → hostOp (.load image) s = .loadFailure s)

/-- LOAD is refused after a STEP and after a LOAD that succeeded, until RESET (R204, the spec's own decision D22; the
flag is log entry 4). -/
def Obligations.LoadIsRefusedElsewhere : Prop :=
  (∀ (s : State) (image : List Byte), s.loadOpen = false →
    hostOp (.load image) s = .refused .loadNotAdmitted) ∧
  (∀ s t : State, step s = .next t → t.loadOpen = false) ∧
  (∀ (s t : State) (image : List Byte), hostOp (.load image) s = .done t → t.loadOpen = false) ∧
  (∀ s t : State, hostOp .reset s = .done t → t.loadOpen = true) ∧
  (∀ (s t : State) (op : HostOp), op ≠ .reset → hostOp op s = .done t → s.loadOpen = false → t.loadOpen = false)

/-- READ returns the value of every state element of R20 but the stack entries, which RET alone observes (R28, C1), and
of the outputs (R36, R40, R195; that R41 names fewer is log entry 21). The codes of `fault_code` are the spec's own decision D8; a byte above 4095 does not exist and is a fault
of the READ (log entry 20). -/
def Obligations.ReadReturnsTheValue : Prop :=
  ∀ s : State,
    (∀ a, a ≤ 4095 → hostRead (.byte a) s = .ok (.byte (s.mem.read a))) ∧
    (∀ a, 4095 < a → hostRead (.byte a) s = .error (.addressOutsideMemory a)) ∧
    (∀ r : Nibble, hostRead (.reg r) s = .ok (.byte (s.reg r))) ∧
    hostRead .index s = .ok (.word s.i) ∧ hostRead .pc s = .ok (.word s.pc) ∧
    (∀ j : Fin 16, hostRead (.stackEntry j) s = .error (.stackEntryUnobservable j)) ∧
    hostRead .sp s = .ok (.frames s.sp) ∧
    hostRead .dt s = .ok (.byte s.dt) ∧ hostRead .st s = .ok (.byte s.st) ∧
    (∀ k : Nibble, hostRead (.key k) s = .ok (.bit (s.keyDown k))) ∧
    (∀ (cx : Fin 64) (cy : Fin 32), hostRead (.cell cx cy) s = .ok (.bit (framePixel s.fb cx.val cy.val))) ∧
    hostRead .dirty s = .ok (.bit s.dirty) ∧ hostRead .mode s = .ok (.mode s.mode) ∧
    hostRead .waitX s = .ok (.nibble s.waitX) ∧
    hostRead .faultPc s = .ok (.word s.faultPc) ∧ hostRead .outputs s = .ok (.outputs s.out) ∧
    (s.faultCode = .none → hostRead .faultCode s = .ok (.code 0)) ∧
    (s.faultCode = .fetchOutOfBounds → hostRead .faultCode s = .ok (.code 1)) ∧
    (s.faultCode = .stackOverflow → hostRead .faultCode s = .ok (.code 2)) ∧
    (s.faultCode = .stackUnderflow → hostRead .faultCode s = .ok (.code 3)) ∧
    (s.faultCode = .memoryOutOfBounds → hostRead .faultCode s = .ok (.code 4)) ∧
    (s.faultCode = .glyphRegionWrite → hostRead .faultCode s = .ok (.code 5)) ∧
    (s.faultCode = .keyIndexOutOfRange → hostRead .faultCode s = .ok (.code 6))

/-! ## The invariant -/

/-- The invariant holds after RESET, for every value of the parameter GLYPHS (D2). It rests on the spec's own decision
D19 (mode RUN, `fault_code` and `fault_pc` 0), on log entry 4 (LOAD open at reset, and open only in RUN) and on the
canonical form of memory, which is the model's. -/
def Obligations.InvariantHoldsAtReset : Prop :=
  Inv State.reset ∧ ∀ g : Vector Byte 80, Inv (State.resetWith g)

/-- Every STEP keeps the invariant: canonical memory, the glyph region intact (R55), the pc at most 0x10FE (R27),
return addresses at most 4094 (R110), `fault_code` naming FAULT (R36), `fault_pc` at the pc in FAULT (R96), LOAD open
only in RUN (log entry 4). The two bounds are the spec's derivations, the glyph region and the fault registers its own
decisions D6 and D8, and the canonical form of memory the model's. -/
def Obligations.InvariantKeptByStep : Prop :=
  ∀ s t : State, Inv s → step s = .next t → Inv t

/-- Every host operation, STEP among them, keeps the invariant, whether it is done or fails. It rests on the spec's own
decisions D6 (glyph region), D8 (fault registers) and D19 (what RESET leaves), on its derivations of the two bounds, on
log entry 4 (LOAD open only in RUN) and on the canonical form of memory, which is the model's. -/
def Obligations.InvariantKeptByHostOperations : Prop :=
  ∀ (op : HostOp) (s t : State), Inv s → (hostOp op s = .done t ∨ hostOp op s = .loadFailure t) → Inv t

/-! ## The stack is observed through RET only -/

/-- A stack entry is observed only through the pc a RET computes from it (R28, which the spec derives; C1, D31): with
any other entries in the stack every READ answers the same, and a STEP leaves the same state but for the stack and,
where it runs a RET, the pc. -/
def Obligations.StackIsObservedOnlyThroughReturn : Prop :=
  ∀ (s : State) (entries : Vector Word 16),
    (∀ target : ReadTarget, hostRead target { s with stack := entries } = hostRead target s) ∧
    ∀ t : State, step s = .next t → ∃ u, step { s with stack := entries } = .next u ∧
      SameExcept [.stack, .pc] t u ∧ (¬ Fetches s .ret → u.pc = t.pc)
end

