-- ==== Sys2Proof/Laws/Decode.lean ====
section
/-! SUPPORT. The fields of a word put together from fields (spec/30_encoding.md R71), and a word from its fields. -/

namespace Sys2Proof

/-! ## `G : NNN` -/

@[simp] theorem fieldG_addr (g : Nibble) (a : Addr12) : fieldG (g ++ a) = g := by
  unfold fieldG
  ext k hk
  simp only [BitVec.getElem_extractLsb', BitVec.getLsbD_append]
  rw [if_neg (by omega), Nat.add_sub_cancel_left, BitVec.getLsbD_eq_getElem hk]

@[simp] theorem fieldNNN_addr (g : Nibble) (a : Addr12) : fieldNNN (g ++ a) = a := by
  unfold fieldNNN
  ext k hk
  simp only [BitVec.getElem_extractLsb', BitVec.getLsbD_append, Nat.zero_add]
  rw [if_pos hk, BitVec.getLsbD_eq_getElem hk]

/-! ## `G : X : KK` -/

@[simp] theorem fieldG_imm (g x : Nibble) (k : Byte) : fieldG (g ++ x ++ k) = g := by
  unfold fieldG
  ext j hj
  simp only [BitVec.getElem_extractLsb', BitVec.getLsbD_append]
  rw [if_neg (by omega), if_neg (by omega), show 12 + j - 8 - 4 = j by omega, BitVec.getLsbD_eq_getElem hj]

@[simp] theorem fieldX_imm (g x : Nibble) (k : Byte) : fieldX (g ++ x ++ k) = x := by
  unfold fieldX
  ext j hj
  simp only [BitVec.getElem_extractLsb', BitVec.getLsbD_append]
  rw [if_neg (by omega), if_pos (by omega), Nat.add_sub_cancel_left, BitVec.getLsbD_eq_getElem hj]

@[simp] theorem fieldKK_imm (g x : Nibble) (k : Byte) : fieldKK (g ++ x ++ k) = k := by
  unfold fieldKK
  ext j hj
  simp only [BitVec.getElem_extractLsb', BitVec.getLsbD_append, Nat.zero_add]
  rw [if_pos hj, BitVec.getLsbD_eq_getElem hj]

/-! ## `G : X : Y : N` -/

@[simp] theorem fieldG_regs (g x y n : Nibble) : fieldG (g ++ x ++ y ++ n) = g := by
  unfold fieldG
  ext j hj
  simp only [BitVec.getElem_extractLsb', BitVec.getLsbD_append]
  rw [if_neg (by omega), if_neg (by omega), if_neg (by omega), show 12 + j - 4 - 4 - 4 = j by omega,
    BitVec.getLsbD_eq_getElem hj]

@[simp] theorem fieldX_regs (g x y n : Nibble) : fieldX (g ++ x ++ y ++ n) = x := by
  unfold fieldX
  ext j hj
  simp only [BitVec.getElem_extractLsb', BitVec.getLsbD_append]
  rw [if_neg (by omega), if_neg (by omega), if_pos (by omega), show 8 + j - 4 - 4 = j by omega,
    BitVec.getLsbD_eq_getElem hj]

@[simp] theorem fieldY_regs (g x y n : Nibble) : fieldY (g ++ x ++ y ++ n) = y := by
  unfold fieldY
  ext j hj
  simp only [BitVec.getElem_extractLsb', BitVec.getLsbD_append]
  rw [if_neg (by omega), if_pos (by omega), Nat.add_sub_cancel_left, BitVec.getLsbD_eq_getElem hj]

@[simp] theorem fieldN_regs (g x y n : Nibble) : fieldN (g ++ x ++ y ++ n) = n := by
  unfold fieldN
  ext j hj
  simp only [BitVec.getElem_extractLsb', BitVec.getLsbD_append, Nat.zero_add]
  rw [if_pos hj, BitVec.getLsbD_eq_getElem hj]

/-! ## A word is its fields, and its two bytes -/

theorem word_eq_addr (w : Word) : fieldG w ++ fieldNNN w = w := by
  unfold fieldG fieldNNN
  ext j hj
  simp only [BitVec.getElem_append, BitVec.getElem_extractLsb', Nat.zero_add]
  split
  · rw [BitVec.getLsbD_eq_getElem hj]
  · rw [show 12 + (j - 12) = j by omega, BitVec.getLsbD_eq_getElem hj]

theorem word_eq_imm (w : Word) : fieldG w ++ fieldX w ++ fieldKK w = w := by
  unfold fieldG fieldX fieldKK
  ext j hj
  simp only [BitVec.getElem_append, BitVec.getElem_extractLsb', Nat.zero_add]
  split
  · rw [BitVec.getLsbD_eq_getElem hj]
  · split
    · rw [show 8 + (j - 8) = j by omega, BitVec.getLsbD_eq_getElem hj]
    · rw [show 12 + (j - 8 - 4) = j by omega, BitVec.getLsbD_eq_getElem hj]

theorem word_eq_regs (w : Word) : fieldG w ++ fieldX w ++ fieldY w ++ fieldN w = w := by
  unfold fieldG fieldX fieldY fieldN
  ext j hj
  simp only [BitVec.getElem_append, BitVec.getElem_extractLsb', Nat.zero_add]
  split
  · rw [BitVec.getLsbD_eq_getElem hj]
  · split
    · rw [show 4 + (j - 4) = j by omega, BitVec.getLsbD_eq_getElem hj]
    · split
      · rw [show 8 + (j - 4 - 4) = j by omega, BitVec.getLsbD_eq_getElem hj]
      · rw [show 12 + (j - 4 - 4 - 4) = j by omega, BitVec.getLsbD_eq_getElem hj]

@[simp] theorem wordOfBytes_hi_lo (w : Word) : wordOfBytes (wordHi w) (wordLo w) = w := by
  unfold wordOfBytes wordHi wordLo
  ext j hj
  simp only [BitVec.getElem_append, BitVec.getElem_extractLsb', Nat.zero_add]
  split
  · rw [BitVec.getLsbD_eq_getElem hj]
  · rw [show 8 + (j - 8) = j by omega, BitVec.getLsbD_eq_getElem hj]

end Sys2Proof
end

