-- ==== Sys2Proof/Laws/Display.lean ====
section
/-! SUPPORT. What drawing does to a cell and to the collision (spec/45_display.md R161): each cell of the grid is
toggled exactly when the sprite covers it, and a collision is a covered lit cell. -/

namespace Sys2Proof.Machine

theorem framePixel_off_grid (f : Frame) {px py : Nat} (h : ¬ (px < 64 ∧ py < 32)) : framePixel f px py = false := by
  simp [framePixel, h]

theorem framePixel_clear (px py : Nat) : framePixel frameClear px py = false := by
  unfold framePixel frameClear
  split <;> simp

/-- A toggle changes the one cell it names, if the grid has it. -/
theorem framePixel_toggle (f : Frame) (cx cy px py : Nat) :
    framePixel (frameToggle f cx cy) px py =
      (framePixel f px py ^^ decide (px = cx ∧ py = cy ∧ cx < 64 ∧ cy < 32)) := by
  unfold frameToggle
  by_cases hc : cx < 64 ∧ cy < 32
  · rw [dif_pos hc]
    unfold framePixel
    by_cases hp : px < 64 ∧ py < 32
    · rw [dif_pos hp, dif_pos hp]
      by_cases hx : px = cx
      · subst hx
        by_cases hy : py = cy
        · subst hy; simp [hc]
        · simp [hy, Ne.symm hy]
      · simp [hx, Ne.symm hx]
    · rw [dif_neg hp, dif_neg hp]
      simp
      omega
  · rw [dif_neg hc]
    have : decide (px = cx ∧ py = cy ∧ cx < 64 ∧ cy < 32) = false := by simp; omega
    simp [this]

/-- Bit `c` of a row falls on the cell `(px, py)` of the grid and is set. -/
def bitCovers (row : Byte) (ox cy c px py : Nat) : Bool :=
  row.getLsbD (7 - c) && decide (px = ox + c ∧ py = cy ∧ px < 64 ∧ py < 32)

theorem drawBit_pixel (row : Byte) (ox cy c : Nat) (d : Drawing) (px py : Nat) :
    framePixel (drawBit row ox cy c d).frame px py =
      (framePixel d.frame px py ^^ bitCovers row ox cy c px py) := by
  unfold drawBit bitCovers
  cases hb : row.getLsbD (7 - c)
  · simp
  · by_cases hg : ox + c ≤ 63 ∧ cy ≤ 31
    · simp only [hg, decide_true, Bool.and_self, if_true, framePixel_toggle, Bool.true_and]
      congr 1
      simp only [decide_eq_decide]
      omega
    · have h1 : ¬ (px = ox + c ∧ py = cy ∧ px < 64 ∧ py < 32) := by omega
      simp [h1, hg]

/-- The first `n` bits of a row cover a cell in their columns whose bit is set. -/
def rowCovers (row : Byte) (ox cy n px py : Nat) : Bool :=
  decide (ox ≤ px ∧ px < ox + n ∧ py = cy ∧ px < 64 ∧ py < 32) && row.getLsbD (7 - (px - ox))

theorem drawBits_pixel (row : Byte) (ox cy : Nat) (d : Drawing) (n px py : Nat) :
    framePixel (drawBits row ox cy d n).frame px py =
      (framePixel d.frame px py ^^ rowCovers row ox cy n px py) := by
  induction n with
  | zero =>
    have : ¬ (ox ≤ px ∧ px < ox + 0 ∧ py = cy ∧ px < 64 ∧ py < 32) := by omega
    rw [drawBits, rowCovers, decide_eq_false this, Bool.false_and, Bool.xor_false]
  | succ n ih =>
    rw [drawBits, drawBit_pixel, ih, Bool.xor_assoc]
    congr 1
    unfold rowCovers bitCovers
    by_cases hn : px = ox + n
    · subst hn
      simp
      by_cases hg : py = cy ∧ ox + n < 64 ∧ py < 32 <;> simp [hg, Bool.and_comm]
    · have h1 : ¬ (px = ox + n ∧ py = cy ∧ px < 64 ∧ py < 32) := by omega
      have h2 : (ox ≤ px ∧ px < ox + n ∧ py = cy ∧ px < 64 ∧ py < 32) ↔
          (ox ≤ px ∧ px < ox + (n + 1) ∧ py = cy ∧ px < 64 ∧ py < 32) := by omega
      simp [h1, h2]

theorem drawBits_collision (row : Byte) (ox cy : Nat) (d : Drawing) (n : Nat) :
    (drawBits row ox cy d n).collision = true ↔
      d.collision = true ∨
        ∃ px py, rowCovers row ox cy n px py = true ∧ framePixel d.frame px py = true := by
  induction n with
  | zero =>
    have : ∀ px py, rowCovers row ox cy 0 px py = false := by
      intro px py
      simp [rowCovers]
      omega
    simp [drawBits, this]
  | succ n ih =>
    have step : (drawBit row ox cy n (drawBits row ox cy d n)).collision = true ↔
        (drawBits row ox cy d n).collision = true ∨
          (row.getLsbD (7 - n) = true ∧ ox + n ≤ 63 ∧ cy ≤ 31 ∧ framePixel d.frame (ox + n) cy = true) := by
      have hf : framePixel (drawBits row ox cy d n).frame (ox + n) cy = framePixel d.frame (ox + n) cy := by
        have : rowCovers row ox cy n (ox + n) cy = false := by simp [rowCovers]
        rw [drawBits_pixel, this, Bool.xor_false]
      unfold drawBit
      split
      · next h => simp at h; simp [hf, h]
      · next h =>
        refine ⟨.inl, ?_⟩
        rintro (h' | ⟨h1, h2, h3, -⟩)
        · exact h'
        · exact absurd (by simp [h1, h2, h3]) h
    rw [drawBits, step, ih, or_assoc]
    apply or_congr_right
    constructor
    · rintro (⟨px, py, hc, hp⟩ | ⟨hb, hx, hy, hp⟩)
      · refine ⟨px, py, ?_, hp⟩
        simp only [rowCovers, Bool.and_eq_true, decide_eq_true_eq] at hc ⊢
        exact ⟨by omega, hc.2⟩
      · refine ⟨ox + n, cy, ?_, hp⟩
        simp only [rowCovers, Bool.and_eq_true, decide_eq_true_eq, Nat.add_sub_cancel_left]
        exact ⟨⟨by omega, by omega, trivial, by omega, by omega⟩, hb⟩
    · rintro ⟨px, py, hc, hp⟩
      simp only [rowCovers, Bool.and_eq_true, decide_eq_true_eq] at hc
      by_cases hn : px = ox + n
      · subst hn
        refine .inr ⟨by simpa using hc.2, by omega, by omega, ?_⟩
        rw [← hc.1.2.2.1]; exact hp
      · refine .inl ⟨px, py, ?_, hp⟩
        simp only [rowCovers, Bool.and_eq_true, decide_eq_true_eq]
        exact ⟨by omega, hc.2⟩

/-- A row of the sprite covers what the sprite covers in that row of the grid. -/
theorem rowCovers_eq (s : State) (ox oy r px py : Nat) :
    rowCovers (s.mem.read (s.dataAddr r)) ox (oy + r) 8 px py =
      (decide (py = oy + r ∧ px < 64 ∧ py < 32) && spriteCovers s ox oy (r + 1) px py) := by
  unfold rowCovers spriteCovers State.dataAddr
  by_cases hr : py = oy + r
  · subst hr
    have h : oy + r - oy = r := by omega
    rw [h]
    by_cases hb : (s.mem.read (s.i.toNat + r)).getLsbD (7 - (px - ox)) = true
    · simp only [hb, Bool.and_true, Bool.decide_and]
      simp [Bool.and_comm, Bool.and_assoc]
    · simp [hb]
  · simp [hr]

/-- Drawing toggles exactly the grid cells the sprite covers. -/
theorem drawRows_pixel (s : State) (ox oy n px py : Nat) :
    framePixel (drawRows s ox oy n).frame px py =
      (framePixel s.fb px py ^^ (decide (px < 64 ∧ py < 32) && spriteCovers s ox oy n px py)) := by
  induction n with
  | zero =>
    have h : spriteCovers s ox oy 0 px py = false := by
      simp only [spriteCovers, Bool.and_eq_false_iff, decide_eq_false_iff_not]
      left; omega
    simp [drawRows, h]
  | succ n ih =>
    rw [drawRows, drawBits_pixel, ih, rowCovers_eq, Bool.xor_assoc]
    congr 1
    by_cases hr : py = oy + n
    · have h : spriteCovers s ox oy n px py = false := by
        simp only [spriteCovers, Bool.and_eq_false_iff, decide_eq_false_iff_not]
        left; omega
      subst hr
      rw [h]
      simp
    · have h : spriteCovers s ox oy (n + 1) px py = spriteCovers s ox oy n px py := by
        unfold spriteCovers
        congr 1
        simp only [decide_eq_decide]
        omega
      simp [h, hr]

/-- A collision is a grid cell, lit before the draw, that the sprite covers. -/
theorem drawRows_collision (s : State) (ox oy n : Nat) :
    (drawRows s ox oy n).collision = true ↔
      ∃ px py, px < 64 ∧ py < 32 ∧ spriteCovers s ox oy n px py = true ∧ framePixel s.fb px py = true := by
  induction n with
  | zero =>
    simp only [drawRows, Bool.false_eq_true, false_iff]
    rintro ⟨px, py, -, -, hc, -⟩
    simp only [spriteCovers, Bool.and_eq_true, decide_eq_true_eq] at hc
    omega
  | succ n ih =>
    rw [drawRows, drawBits_collision, ih]
    have same : ∀ px py, py = oy + n →
        framePixel (drawRows s ox oy n).frame px py = framePixel s.fb px py := by
      intro px py hr
      have h : spriteCovers s ox oy n px py = false := by
        simp only [spriteCovers, Bool.and_eq_false_iff, decide_eq_false_iff_not]
        left; omega
      rw [drawRows_pixel, h]; simp
    constructor
    · rintro (⟨px, py, hx, hy, hc, hp⟩ | ⟨px, py, hc, hp⟩)
      · refine ⟨px, py, hx, hy, ?_, hp⟩
        simp only [spriteCovers, Bool.and_eq_true, decide_eq_true_eq] at hc ⊢
        exact ⟨by omega, hc.2⟩
      · rw [rowCovers_eq, Bool.and_eq_true, decide_eq_true_eq] at hc
        rw [same _ _ hc.1.1] at hp
        exact ⟨px, py, hc.1.2.1, hc.1.2.2, hc.2, hp⟩
    · rintro ⟨px, py, hx, hy, hc, hp⟩
      by_cases hr : py = oy + n
      · refine .inr ⟨px, py, ?_, by rw [same _ _ hr]; exact hp⟩
        rw [rowCovers_eq, Bool.and_eq_true, decide_eq_true_eq]
        exact ⟨⟨hr, hx, hy⟩, hc⟩
      · refine .inl ⟨px, py, hx, hy, ?_, hp⟩
        simp only [spriteCovers, Bool.and_eq_true, decide_eq_true_eq] at hc ⊢
        exact ⟨by omega, hc.2⟩

end Sys2Proof.Machine
end

