-- ==== Sys2Proof/Laws/Memory.lean ====
section
/-! SUPPORT. The laws of memory: a read after a write, the canonical form kept, the reset contents fixed. -/

namespace Sys2Proof.Machine

theorem findCell_putCell_self (a : Nat) (v : Byte) (cs : List Host.Cell) :
    findCell a (putCell a v cs) = some v := by
  induction cs with
  | nil => simp [putCell, findCell]
  | cons c cs ih =>
    obtain ⟨b, w⟩ := c
    simp only [putCell]
    split
    · simp [findCell]
    · split
      · simp [findCell]
      · simp_all [findCell]

theorem findCell_putCell_of_ne {a b : Nat} (v : Byte) (h : b ≠ a) (cs : List Host.Cell) :
    findCell b (putCell a v cs) = findCell b cs := by
  induction cs with
  | nil => simp [putCell, findCell, h]
  | cons c cs ih =>
    obtain ⟨d, w⟩ := c
    simp only [putCell]
    split
    · simp [findCell, h]
    · split
      · next h2 => subst h2; simp [findCell, h]
      · simp [findCell, ih]

theorem findCell_eq_none_of_lt {a : Nat} {cs : List Host.Cell} (h : ∀ c ∈ cs, a < c.1) : findCell a cs = none := by
  induction cs with
  | nil => rfl
  | cons c cs ih =>
    have hc := h c (by simp)
    rw [findCell, if_neg (by omega)]
    exact ih fun d hd => h d (by simp [hd])

theorem findCell_dropCell_self {cs : List Host.Cell} (a : Nat) (h : cs.Pairwise (fun c d => c.1 < d.1)) :
    findCell a (dropCell a cs) = none := by
  induction cs with
  | nil => rfl
  | cons c cs ih =>
    obtain ⟨b, w⟩ := c
    rw [List.pairwise_cons] at h
    simp only [dropCell]
    split
    · next hab => subst hab; exact findCell_eq_none_of_lt h.1
    · next hab => rw [findCell, if_neg hab]; exact ih h.2

theorem findCell_dropCell_of_ne {a b : Nat} (h : b ≠ a) (cs : List Host.Cell) :
    findCell b (dropCell a cs) = findCell b cs := by
  induction cs with
  | nil => rfl
  | cons c cs ih =>
    obtain ⟨d, w⟩ := c
    simp only [dropCell]
    split
    · next hd => subst hd; simp [findCell, h]
    · simp [findCell, ih]

theorem mem_dropCell {a : Nat} {cs : List Host.Cell} {c : Host.Cell} (h : c ∈ dropCell a cs) : c ∈ cs := by
  induction cs with
  | nil => exact h
  | cons d cs ih =>
    simp only [dropCell] at h
    split at h
    · simp [h]
    · rcases List.mem_cons.mp h with rfl | h
      · simp
      · simp [ih h]

theorem mem_putCell {a : Nat} {v : Byte} {cs : List Host.Cell} {c : Host.Cell} (h : c ∈ putCell a v cs) :
    c = (a, v) ∨ c ∈ cs := by
  induction cs with
  | nil => simpa [putCell] using h
  | cons d cs ih =>
    simp only [putCell] at h
    split at h
    · simpa using h
    · split at h
      · rcases List.mem_cons.mp h with h | h
        · exact .inl h
        · simp [h]
      · rcases List.mem_cons.mp h with h | h
        · simp [h]
        · rcases ih h with h | h
          · exact .inl h
          · simp [h]

theorem dropCell_pairwise {a : Nat} {cs : List Host.Cell} (h : cs.Pairwise (fun c d => c.1 < d.1)) :
    (dropCell a cs).Pairwise (fun c d => c.1 < d.1) := by
  induction cs with
  | nil => exact h
  | cons c cs ih =>
    rw [List.pairwise_cons] at h
    simp only [dropCell]
    split
    · exact h.2
    · exact List.pairwise_cons.mpr ⟨fun d hd => h.1 d (mem_dropCell hd), ih h.2⟩

theorem putCell_pairwise {a : Nat} {v : Byte} {cs : List Host.Cell} (h : cs.Pairwise (fun c d => c.1 < d.1)) :
    (putCell a v cs).Pairwise (fun c d => c.1 < d.1) := by
  induction cs with
  | nil => simp [putCell]
  | cons c cs ih =>
    obtain ⟨b, w⟩ := c
    have hc := List.pairwise_cons.mp h
    simp only [putCell]
    split
    · next hab =>
      refine List.pairwise_cons.mpr ⟨fun d hd => ?_, h⟩
      rcases List.mem_cons.mp hd with rfl | hd
      · exact hab
      · exact Nat.lt_trans hab (hc.1 d hd)
    · split
      · next hab => subst hab; exact List.pairwise_cons.mpr hc
      · refine List.pairwise_cons.mpr ⟨fun d hd => ?_, ih hc.2⟩
        rcases mem_putCell hd with rfl | hd
        · show b < a
          omega
        · exact hc.1 d hd

@[simp] theorem Memory.write_glyphs (m : Memory) (a : Nat) (v : Byte) : (m.write a v).glyphs = m.glyphs := by
  unfold Memory.write
  split
  · rfl
  · split <;> rfl

@[simp] theorem Memory.unlisted_write (m : Memory) (a b : Nat) (v : Byte) :
    (m.write a v).unlisted b = m.unlisted b := by
  simp [Memory.unlisted]

/-- A write keeps the canonical form. -/
theorem Memory.wf_write {m : Memory} (h : m.wf) (a : Nat) (v : Byte) : (m.write a v).wf := by
  have hu : ∀ b, (m.write a v).unlisted b = m.unlisted b := fun b => Memory.unlisted_write m a b v
  refine ⟨?_, fun c hc => ?_⟩
  · unfold Memory.write
    split
    · exact h.1
    · split
      · exact dropCell_pairwise h.1
      · exact putCell_pairwise h.1
  · rw [hu]
    revert hc
    unfold Memory.write
    split
    · exact h.2 c
    · split
      · exact fun hc => h.2 c (mem_dropCell hc)
      · intro hc
        rcases mem_putCell hc with rfl | hc
        · exact ⟨by simp_all, ‹_›⟩
        · exact h.2 c hc

/-- A read elsewhere is left alone by a write, in the canonical form or not. -/
theorem Memory.read_write_of_ne (m : Memory) {a b : Nat} (v : Byte) (h : b ≠ a) :
    (m.write a v).read b = m.read b := by
  unfold Memory.read
  rw [Memory.unlisted_write]
  unfold Memory.write
  split
  · rfl
  · split
    · simp [findCell_dropCell_of_ne h]
    · simp [findCell_putCell_of_ne v h]

/-- A read after a write to the same address gives the value written. -/
theorem Memory.read_write_self {m : Memory} (hw : m.wf) {a : Nat} (v : Byte) (h : a ≤ 4095) :
    (m.write a v).read a = v := by
  unfold Memory.read
  rw [Memory.unlisted_write]
  unfold Memory.write
  rw [if_neg (by omega)]
  split
  · next hv => simp [findCell_dropCell_self a hw.1, hv]
  · simp [findCell_putCell_self]

theorem findCell_mem {a : Nat} {v : Byte} {cs : List Host.Cell} (h : findCell a cs = some v) : (a, v) ∈ cs := by
  induction cs with
  | nil => simp [findCell] at h
  | cons c cs ih =>
    obtain ⟨b, w⟩ := c
    rw [findCell] at h
    split at h
    · next hab => subst hab; simp_all
    · simp [ih h]

/-- There is no byte above 4095: a read there gives 0, and no step asks for one (log entry 10). -/
theorem Memory.read_above {m : Memory} (hw : m.wf) {a : Nat} (h : 4095 < a) : m.read a = 0 := by
  have hn : findCell a m.cells = none := by
    rcases hf : findCell a m.cells with _ | v
    · rfl
    · have h1 : a ≤ 4095 := (hw.2 _ (findCell_mem hf)).1
      omega
  simp [Memory.read, hn, Memory.unlisted, show ¬ a < 80 by omega]

end Sys2Proof.Machine
end

