-- ==== Sys2Proof/Laws/State.lean ====
section
/-! SUPPORT. What each named update leaves in each field of the state: one lemma per field per update, by `rfl`, so
that no later proof unfolds a record update. -/

namespace Sys2Proof.Machine

/-! ## `setReg` -/

@[simp] theorem State.setReg_mem (s : State) (r : Nibble) (v : Byte) : (s.setReg r v).mem = s.mem := rfl
@[simp] theorem State.setReg_x (s : State) (r : Nibble) (v : Byte) : (s.setReg r v).x = s.x.set r.toNat v r.isLt := rfl
@[simp] theorem State.setReg_i (s : State) (r : Nibble) (v : Byte) : (s.setReg r v).i = s.i := rfl
@[simp] theorem State.setReg_pc (s : State) (r : Nibble) (v : Byte) : (s.setReg r v).pc = s.pc := rfl
@[simp] theorem State.setReg_stack (s : State) (r : Nibble) (v : Byte) : (s.setReg r v).stack = s.stack := rfl
@[simp] theorem State.setReg_sp (s : State) (r : Nibble) (v : Byte) : (s.setReg r v).sp = s.sp := rfl
@[simp] theorem State.setReg_dt (s : State) (r : Nibble) (v : Byte) : (s.setReg r v).dt = s.dt := rfl
@[simp] theorem State.setReg_st (s : State) (r : Nibble) (v : Byte) : (s.setReg r v).st = s.st := rfl
@[simp] theorem State.setReg_key (s : State) (r : Nibble) (v : Byte) : (s.setReg r v).key = s.key := rfl
@[simp] theorem State.setReg_fb (s : State) (r : Nibble) (v : Byte) : (s.setReg r v).fb = s.fb := rfl
@[simp] theorem State.setReg_dirty (s : State) (r : Nibble) (v : Byte) : (s.setReg r v).dirty = s.dirty := rfl
@[simp] theorem State.setReg_mode (s : State) (r : Nibble) (v : Byte) : (s.setReg r v).mode = s.mode := rfl
@[simp] theorem State.setReg_waitX (s : State) (r : Nibble) (v : Byte) : (s.setReg r v).waitX = s.waitX := rfl
@[simp] theorem State.setReg_faultCode (s : State) (r : Nibble) (v : Byte) : (s.setReg r v).faultCode = s.faultCode := rfl
@[simp] theorem State.setReg_faultPc (s : State) (r : Nibble) (v : Byte) : (s.setReg r v).faultPc = s.faultPc := rfl
@[simp] theorem State.setReg_out (s : State) (r : Nibble) (v : Byte) : (s.setReg r v).out = s.out := rfl
@[simp] theorem State.setReg_draws (s : State) (r : Nibble) (v : Byte) : (s.setReg r v).draws = s.draws := rfl
@[simp] theorem State.setReg_loadOpen (s : State) (r : Nibble) (v : Byte) : (s.setReg r v).loadOpen = s.loadOpen := rfl

/-! ## `setRegFlag` -/

@[simp] theorem State.setRegFlag_mem (s : State) (r : Nibble) (v f : Byte) : (s.setRegFlag r v f).mem = s.mem := rfl
@[simp] theorem State.setRegFlag_i (s : State) (r : Nibble) (v f : Byte) : (s.setRegFlag r v f).i = s.i := rfl
@[simp] theorem State.setRegFlag_pc (s : State) (r : Nibble) (v f : Byte) : (s.setRegFlag r v f).pc = s.pc := rfl
@[simp] theorem State.setRegFlag_stack (s : State) (r : Nibble) (v f : Byte) : (s.setRegFlag r v f).stack = s.stack := rfl
@[simp] theorem State.setRegFlag_sp (s : State) (r : Nibble) (v f : Byte) : (s.setRegFlag r v f).sp = s.sp := rfl
@[simp] theorem State.setRegFlag_dt (s : State) (r : Nibble) (v f : Byte) : (s.setRegFlag r v f).dt = s.dt := rfl
@[simp] theorem State.setRegFlag_st (s : State) (r : Nibble) (v f : Byte) : (s.setRegFlag r v f).st = s.st := rfl
@[simp] theorem State.setRegFlag_key (s : State) (r : Nibble) (v f : Byte) : (s.setRegFlag r v f).key = s.key := rfl
@[simp] theorem State.setRegFlag_fb (s : State) (r : Nibble) (v f : Byte) : (s.setRegFlag r v f).fb = s.fb := rfl
@[simp] theorem State.setRegFlag_dirty (s : State) (r : Nibble) (v f : Byte) : (s.setRegFlag r v f).dirty = s.dirty := rfl
@[simp] theorem State.setRegFlag_mode (s : State) (r : Nibble) (v f : Byte) : (s.setRegFlag r v f).mode = s.mode := rfl
@[simp] theorem State.setRegFlag_waitX (s : State) (r : Nibble) (v f : Byte) : (s.setRegFlag r v f).waitX = s.waitX := rfl
@[simp] theorem State.setRegFlag_faultCode (s : State) (r : Nibble) (v f : Byte) : (s.setRegFlag r v f).faultCode = s.faultCode := rfl
@[simp] theorem State.setRegFlag_faultPc (s : State) (r : Nibble) (v f : Byte) : (s.setRegFlag r v f).faultPc = s.faultPc := rfl
@[simp] theorem State.setRegFlag_out (s : State) (r : Nibble) (v f : Byte) : (s.setRegFlag r v f).out = s.out := rfl
@[simp] theorem State.setRegFlag_draws (s : State) (r : Nibble) (v f : Byte) : (s.setRegFlag r v f).draws = s.draws := rfl
@[simp] theorem State.setRegFlag_loadOpen (s : State) (r : Nibble) (v f : Byte) : (s.setRegFlag r v f).loadOpen = s.loadOpen := rfl

/-! ## `setKey` -/

@[simp] theorem State.setKey_mem (s : State) (k : Nibble) (b : Bool) : (s.setKey k b).mem = s.mem := rfl
@[simp] theorem State.setKey_x (s : State) (k : Nibble) (b : Bool) : (s.setKey k b).x = s.x := rfl
@[simp] theorem State.setKey_i (s : State) (k : Nibble) (b : Bool) : (s.setKey k b).i = s.i := rfl
@[simp] theorem State.setKey_pc (s : State) (k : Nibble) (b : Bool) : (s.setKey k b).pc = s.pc := rfl
@[simp] theorem State.setKey_stack (s : State) (k : Nibble) (b : Bool) : (s.setKey k b).stack = s.stack := rfl
@[simp] theorem State.setKey_sp (s : State) (k : Nibble) (b : Bool) : (s.setKey k b).sp = s.sp := rfl
@[simp] theorem State.setKey_dt (s : State) (k : Nibble) (b : Bool) : (s.setKey k b).dt = s.dt := rfl
@[simp] theorem State.setKey_st (s : State) (k : Nibble) (b : Bool) : (s.setKey k b).st = s.st := rfl
@[simp] theorem State.setKey_key (s : State) (k : Nibble) (b : Bool) : (s.setKey k b).key = s.key.set k.toNat b k.isLt := rfl
@[simp] theorem State.setKey_fb (s : State) (k : Nibble) (b : Bool) : (s.setKey k b).fb = s.fb := rfl
@[simp] theorem State.setKey_dirty (s : State) (k : Nibble) (b : Bool) : (s.setKey k b).dirty = s.dirty := rfl
@[simp] theorem State.setKey_mode (s : State) (k : Nibble) (b : Bool) : (s.setKey k b).mode = s.mode := rfl
@[simp] theorem State.setKey_waitX (s : State) (k : Nibble) (b : Bool) : (s.setKey k b).waitX = s.waitX := rfl
@[simp] theorem State.setKey_faultCode (s : State) (k : Nibble) (b : Bool) : (s.setKey k b).faultCode = s.faultCode := rfl
@[simp] theorem State.setKey_faultPc (s : State) (k : Nibble) (b : Bool) : (s.setKey k b).faultPc = s.faultPc := rfl
@[simp] theorem State.setKey_out (s : State) (k : Nibble) (b : Bool) : (s.setKey k b).out = s.out := rfl
@[simp] theorem State.setKey_draws (s : State) (k : Nibble) (b : Bool) : (s.setKey k b).draws = s.draws := rfl
@[simp] theorem State.setKey_loadOpen (s : State) (k : Nibble) (b : Bool) : (s.setKey k b).loadOpen = s.loadOpen := rfl

/-! ## `enterFault` -/

@[simp] theorem State.enterFault_mem (s : State) (c : FaultCode) (p : Word) : (s.enterFault c p).mem = s.mem := rfl
@[simp] theorem State.enterFault_x (s : State) (c : FaultCode) (p : Word) : (s.enterFault c p).x = s.x := rfl
@[simp] theorem State.enterFault_i (s : State) (c : FaultCode) (p : Word) : (s.enterFault c p).i = s.i := rfl
@[simp] theorem State.enterFault_pc (s : State) (c : FaultCode) (p : Word) : (s.enterFault c p).pc = p := rfl
@[simp] theorem State.enterFault_stack (s : State) (c : FaultCode) (p : Word) : (s.enterFault c p).stack = s.stack := rfl
@[simp] theorem State.enterFault_sp (s : State) (c : FaultCode) (p : Word) : (s.enterFault c p).sp = s.sp := rfl
@[simp] theorem State.enterFault_dt (s : State) (c : FaultCode) (p : Word) : (s.enterFault c p).dt = s.dt := rfl
@[simp] theorem State.enterFault_st (s : State) (c : FaultCode) (p : Word) : (s.enterFault c p).st = s.st := rfl
@[simp] theorem State.enterFault_key (s : State) (c : FaultCode) (p : Word) : (s.enterFault c p).key = s.key := rfl
@[simp] theorem State.enterFault_fb (s : State) (c : FaultCode) (p : Word) : (s.enterFault c p).fb = s.fb := rfl
@[simp] theorem State.enterFault_dirty (s : State) (c : FaultCode) (p : Word) : (s.enterFault c p).dirty = s.dirty := rfl
@[simp] theorem State.enterFault_mode (s : State) (c : FaultCode) (p : Word) : (s.enterFault c p).mode = .fault := rfl
@[simp] theorem State.enterFault_waitX (s : State) (c : FaultCode) (p : Word) : (s.enterFault c p).waitX = s.waitX := rfl
@[simp] theorem State.enterFault_faultCode (s : State) (c : FaultCode) (p : Word) : (s.enterFault c p).faultCode = c := rfl
@[simp] theorem State.enterFault_faultPc (s : State) (c : FaultCode) (p : Word) : (s.enterFault c p).faultPc = p := rfl
@[simp] theorem State.enterFault_out (s : State) (c : FaultCode) (p : Word) : (s.enterFault c p).out = s.out := rfl
@[simp] theorem State.enterFault_draws (s : State) (c : FaultCode) (p : Word) : (s.enterFault c p).draws = s.draws := rfl
@[simp] theorem State.enterFault_loadOpen (s : State) (c : FaultCode) (p : Word) : (s.enterFault c p).loadOpen = s.loadOpen := rfl

/-! ## `markIllegal` -/

@[simp] theorem State.markIllegal_mem (s : State) : (s.markIllegal).mem = s.mem := rfl
@[simp] theorem State.markIllegal_x (s : State) : (s.markIllegal).x = s.x := rfl
@[simp] theorem State.markIllegal_i (s : State) : (s.markIllegal).i = s.i := rfl
@[simp] theorem State.markIllegal_pc (s : State) : (s.markIllegal).pc = s.pc := rfl
@[simp] theorem State.markIllegal_stack (s : State) : (s.markIllegal).stack = s.stack := rfl
@[simp] theorem State.markIllegal_sp (s : State) : (s.markIllegal).sp = s.sp := rfl
@[simp] theorem State.markIllegal_dt (s : State) : (s.markIllegal).dt = s.dt := rfl
@[simp] theorem State.markIllegal_st (s : State) : (s.markIllegal).st = s.st := rfl
@[simp] theorem State.markIllegal_key (s : State) : (s.markIllegal).key = s.key := rfl
@[simp] theorem State.markIllegal_fb (s : State) : (s.markIllegal).fb = s.fb := rfl
@[simp] theorem State.markIllegal_dirty (s : State) : (s.markIllegal).dirty = s.dirty := rfl
@[simp] theorem State.markIllegal_mode (s : State) : (s.markIllegal).mode = s.mode := rfl
@[simp] theorem State.markIllegal_waitX (s : State) : (s.markIllegal).waitX = s.waitX := rfl
@[simp] theorem State.markIllegal_faultCode (s : State) : (s.markIllegal).faultCode = s.faultCode := rfl
@[simp] theorem State.markIllegal_faultPc (s : State) : (s.markIllegal).faultPc = s.faultPc := rfl
@[simp] theorem State.markIllegal_out (s : State) : (s.markIllegal).out = { s.out with illegalEvent := true } := rfl
@[simp] theorem State.markIllegal_draws (s : State) : (s.markIllegal).draws = s.draws := rfl
@[simp] theorem State.markIllegal_loadOpen (s : State) : (s.markIllegal).loadOpen = s.loadOpen := rfl

/-! ## `beginStep` -/

@[simp] theorem State.beginStep_mem (s : State) : (s.beginStep).mem = s.mem := rfl
@[simp] theorem State.beginStep_x (s : State) : (s.beginStep).x = s.x := rfl
@[simp] theorem State.beginStep_i (s : State) : (s.beginStep).i = s.i := rfl
@[simp] theorem State.beginStep_pc (s : State) : (s.beginStep).pc = s.pc := rfl
@[simp] theorem State.beginStep_stack (s : State) : (s.beginStep).stack = s.stack := rfl
@[simp] theorem State.beginStep_sp (s : State) : (s.beginStep).sp = s.sp := rfl
@[simp] theorem State.beginStep_dt (s : State) : (s.beginStep).dt = s.dt := rfl
@[simp] theorem State.beginStep_st (s : State) : (s.beginStep).st = s.st := rfl
@[simp] theorem State.beginStep_key (s : State) : (s.beginStep).key = s.key := rfl
@[simp] theorem State.beginStep_fb (s : State) : (s.beginStep).fb = s.fb := rfl
@[simp] theorem State.beginStep_dirty (s : State) : (s.beginStep).dirty = s.dirty := rfl
@[simp] theorem State.beginStep_mode (s : State) : (s.beginStep).mode = s.mode := rfl
@[simp] theorem State.beginStep_waitX (s : State) : (s.beginStep).waitX = s.waitX := rfl
@[simp] theorem State.beginStep_faultCode (s : State) : (s.beginStep).faultCode = s.faultCode := rfl
@[simp] theorem State.beginStep_faultPc (s : State) : (s.beginStep).faultPc = s.faultPc := rfl
@[simp] theorem State.beginStep_out (s : State) : (s.beginStep).out = Outputs.cleared := rfl
@[simp] theorem State.beginStep_draws (s : State) : (s.beginStep).draws = s.draws := rfl
@[simp] theorem State.beginStep_loadOpen (s : State) : (s.beginStep).loadOpen = false := rfl

/-! ## `afterFetch` -/

@[simp] theorem State.afterFetch_mem (s : State) : (s.afterFetch).mem = s.mem := rfl
@[simp] theorem State.afterFetch_x (s : State) : (s.afterFetch).x = s.x := rfl
@[simp] theorem State.afterFetch_i (s : State) : (s.afterFetch).i = s.i := rfl
@[simp] theorem State.afterFetch_pc (s : State) : (s.afterFetch).pc = s.pc + 2 := rfl
@[simp] theorem State.afterFetch_stack (s : State) : (s.afterFetch).stack = s.stack := rfl
@[simp] theorem State.afterFetch_sp (s : State) : (s.afterFetch).sp = s.sp := rfl
@[simp] theorem State.afterFetch_dt (s : State) : (s.afterFetch).dt = s.dt := rfl
@[simp] theorem State.afterFetch_st (s : State) : (s.afterFetch).st = s.st := rfl
@[simp] theorem State.afterFetch_key (s : State) : (s.afterFetch).key = s.key := rfl
@[simp] theorem State.afterFetch_fb (s : State) : (s.afterFetch).fb = s.fb := rfl
@[simp] theorem State.afterFetch_dirty (s : State) : (s.afterFetch).dirty = s.dirty := rfl
@[simp] theorem State.afterFetch_mode (s : State) : (s.afterFetch).mode = s.mode := rfl
@[simp] theorem State.afterFetch_waitX (s : State) : (s.afterFetch).waitX = s.waitX := rfl
@[simp] theorem State.afterFetch_faultCode (s : State) : (s.afterFetch).faultCode = s.faultCode := rfl
@[simp] theorem State.afterFetch_faultPc (s : State) : (s.afterFetch).faultPc = s.faultPc := rfl
@[simp] theorem State.afterFetch_out (s : State) : (s.afterFetch).out = { s.out with diagValid := true, diagWord := s.fetchedWord, diagPc := s.pc } := rfl
@[simp] theorem State.afterFetch_draws (s : State) : (s.afterFetch).draws = s.draws := rfl
@[simp] theorem State.afterFetch_loadOpen (s : State) : (s.afterFetch).loadOpen = s.loadOpen := rfl

/-! ## `tick` -/

@[simp] theorem State.tick_mem (s : State) : (s.tick).mem = s.mem := rfl
@[simp] theorem State.tick_x (s : State) : (s.tick).x = s.x := rfl
@[simp] theorem State.tick_i (s : State) : (s.tick).i = s.i := rfl
@[simp] theorem State.tick_pc (s : State) : (s.tick).pc = s.pc := rfl
@[simp] theorem State.tick_stack (s : State) : (s.tick).stack = s.stack := rfl
@[simp] theorem State.tick_sp (s : State) : (s.tick).sp = s.sp := rfl
@[simp] theorem State.tick_dt (s : State) : (s.tick).dt = timerDown s.dt := rfl
@[simp] theorem State.tick_st (s : State) : (s.tick).st = timerDown s.st := rfl
@[simp] theorem State.tick_key (s : State) : (s.tick).key = s.key := rfl
@[simp] theorem State.tick_fb (s : State) : (s.tick).fb = s.fb := rfl
@[simp] theorem State.tick_dirty (s : State) : (s.tick).dirty = s.dirty := rfl
@[simp] theorem State.tick_mode (s : State) : (s.tick).mode = s.mode := rfl
@[simp] theorem State.tick_waitX (s : State) : (s.tick).waitX = s.waitX := rfl
@[simp] theorem State.tick_faultCode (s : State) : (s.tick).faultCode = s.faultCode := rfl
@[simp] theorem State.tick_faultPc (s : State) : (s.tick).faultPc = s.faultPc := rfl
@[simp] theorem State.tick_out (s : State) : (s.tick).out = { s.out with soundEvent := s.out.soundEvent || s.st == 1 } := rfl
@[simp] theorem State.tick_draws (s : State) : (s.tick).draws = s.draws := rfl
@[simp] theorem State.tick_loadOpen (s : State) : (s.tick).loadOpen = s.loadOpen := rfl

/-! ## `skipIf`: only the pc changes -/

@[simp] theorem State.skipIf_mem (s : State) (b : Bool) : (s.skipIf b).mem = s.mem := by cases b <;> rfl
@[simp] theorem State.skipIf_x (s : State) (b : Bool) : (s.skipIf b).x = s.x := by cases b <;> rfl
@[simp] theorem State.skipIf_i (s : State) (b : Bool) : (s.skipIf b).i = s.i := by cases b <;> rfl
@[simp] theorem State.skipIf_pc (s : State) (b : Bool) : (s.skipIf b).pc = if b then s.pc + 2 else s.pc := by
  cases b <;> rfl
@[simp] theorem State.skipIf_stack (s : State) (b : Bool) : (s.skipIf b).stack = s.stack := by cases b <;> rfl
@[simp] theorem State.skipIf_sp (s : State) (b : Bool) : (s.skipIf b).sp = s.sp := by cases b <;> rfl
@[simp] theorem State.skipIf_dt (s : State) (b : Bool) : (s.skipIf b).dt = s.dt := by cases b <;> rfl
@[simp] theorem State.skipIf_st (s : State) (b : Bool) : (s.skipIf b).st = s.st := by cases b <;> rfl
@[simp] theorem State.skipIf_key (s : State) (b : Bool) : (s.skipIf b).key = s.key := by cases b <;> rfl
@[simp] theorem State.skipIf_fb (s : State) (b : Bool) : (s.skipIf b).fb = s.fb := by cases b <;> rfl
@[simp] theorem State.skipIf_dirty (s : State) (b : Bool) : (s.skipIf b).dirty = s.dirty := by cases b <;> rfl
@[simp] theorem State.skipIf_mode (s : State) (b : Bool) : (s.skipIf b).mode = s.mode := by cases b <;> rfl
@[simp] theorem State.skipIf_waitX (s : State) (b : Bool) : (s.skipIf b).waitX = s.waitX := by cases b <;> rfl
@[simp] theorem State.skipIf_faultCode (s : State) (b : Bool) : (s.skipIf b).faultCode = s.faultCode := by cases b <;> rfl
@[simp] theorem State.skipIf_faultPc (s : State) (b : Bool) : (s.skipIf b).faultPc = s.faultPc := by cases b <;> rfl
@[simp] theorem State.skipIf_out (s : State) (b : Bool) : (s.skipIf b).out = s.out := by cases b <;> rfl
@[simp] theorem State.skipIf_draws (s : State) (b : Bool) : (s.skipIf b).draws = s.draws := by cases b <;> rfl
@[simp] theorem State.skipIf_loadOpen (s : State) (b : Bool) : (s.skipIf b).loadOpen = s.loadOpen := by cases b <;> rfl

/-! ## Reads that an update of other fields leaves alone -/

theorem State.reg_congr {s t : State} (h : t.x = s.x) (r : Nibble) : t.reg r = s.reg r := by
  simp [State.reg, h]

theorem State.keyDown_congr {s t : State} (h : t.key = s.key) (k : Nibble) : t.keyDown k = s.keyDown k := by
  simp [State.keyDown, h]

@[simp] theorem State.reg_enterFault (s : State) (c : FaultCode) (p : Word) (r : Nibble) :
    (s.enterFault c p).reg r = s.reg r := rfl

@[simp] theorem State.reg_markIllegal (s : State) (r : Nibble) : s.markIllegal.reg r = s.reg r := rfl

@[simp] theorem State.reg_beginStep (s : State) (r : Nibble) : s.beginStep.reg r = s.reg r := rfl

@[simp] theorem State.reg_afterFetch (s : State) (r : Nibble) : s.afterFetch.reg r = s.reg r := rfl

@[simp] theorem State.reg_tick (s : State) (r : Nibble) : s.tick.reg r = s.reg r := rfl

@[simp] theorem State.reg_setKey (s : State) (k : Nibble) (b : Bool) (r : Nibble) :
    (s.setKey k b).reg r = s.reg r := rfl

@[simp] theorem State.reg_skipIf (s : State) (b : Bool) (r : Nibble) : (s.skipIf b).reg r = s.reg r := by
  cases b <;> rfl

@[simp] theorem State.keyDown_setReg (s : State) (r : Nibble) (v : Byte) (k : Nibble) :
    (s.setReg r v).keyDown k = s.keyDown k := rfl

@[simp] theorem State.keyDown_beginStep (s : State) (k : Nibble) : s.beginStep.keyDown k = s.keyDown k := rfl

@[simp] theorem State.keyDown_afterFetch (s : State) (k : Nibble) : s.afterFetch.keyDown k = s.keyDown k := rfl

@[simp] theorem State.keyDown_enterFault (s : State) (c : FaultCode) (p : Word) (k : Nibble) :
    (s.enterFault c p).keyDown k = s.keyDown k := rfl

@[simp] theorem State.keyDown_markIllegal (s : State) (k : Nibble) : s.markIllegal.keyDown k = s.keyDown k := rfl

@[simp] theorem State.keyDown_setRegFlag (s : State) (r : Nibble) (v f : Byte) (k : Nibble) :
    (s.setRegFlag r v f).keyDown k = s.keyDown k := rfl

@[simp] theorem State.keyDown_skipIf (s : State) (b : Bool) (k : Nibble) : (s.skipIf b).keyDown k = s.keyDown k := by
  cases b <;> rfl

@[simp] theorem State.keyDown_tick (s : State) (k : Nibble) : s.tick.keyDown k = s.keyDown k := rfl

@[simp] theorem State.fetchedWord_beginStep (s : State) : s.beginStep.fetchedWord = s.fetchedWord := rfl

@[simp] theorem State.fetchFails_beginStep (s : State) : s.beginStep.fetchFails = s.fetchFails := rfl

@[simp] theorem State.fetchPc_afterFetch (s : State) : s.afterFetch.fetchPc = s.pc := by
  simp [State.fetchPc]

end Sys2Proof.Machine
end

