-- ==== Sys2Proof/Laws/Registers.lean ====
section
/-! SUPPORT. The laws of the register file and the key vector. -/

namespace Sys2Proof.Machine

theorem nibble_toNat_inj {a b : Nibble} : a.toNat = b.toNat ↔ a = b := BitVec.toNat_inj

/-- What a register reads after one register is written. -/
theorem State.reg_setReg (s : State) (r q : Nibble) (v : Byte) :
    (s.setReg r v).reg q = if q = r then v else s.reg q := by
  unfold State.reg
  simp only [State.setReg_x, Vector.getElem_set, BitVec.toNat_inj, eq_comm (a := r)]

@[simp] theorem State.reg_setReg_self (s : State) (r : Nibble) (v : Byte) : (s.setReg r v).reg r = v := by
  simp [State.reg_setReg]

theorem State.reg_setReg_of_ne (s : State) {r q : Nibble} (v : Byte) (h : q ≠ r) :
    (s.setReg r v).reg q = s.reg q := by
  simp [State.reg_setReg, h]

/-- What a register reads after a result and a flag are written: the flag wins in VF. -/
theorem State.reg_setRegFlag (s : State) (r q : Nibble) (v f : Byte) :
    (s.setRegFlag r v f).reg q = if q = 0xF#4 then f else if q = r then v else s.reg q := by
  simp [State.setRegFlag, State.reg_setReg]

/-- What a key reads after one key is set. -/
theorem State.keyDown_setKey (s : State) (k j : Nibble) (b : Bool) :
    (s.setKey k b).keyDown j = if j = k then b else s.keyDown j := by
  unfold State.keyDown
  simp only [State.setKey_key, Vector.getElem_set, BitVec.toNat_inj, eq_comm (a := k)]

end Sys2Proof.Machine
end

