-- ==== Sys2Proof/Laws/IndexMemory.lean ====
section
/-! SUPPORT. What the bulk transfers do: Fx33, Fx55 and Fx65 (spec/44_index_memory.md), and the checks before them
(spec/20_memory.md R57). -/

namespace Sys2Proof.Machine

/-- A checked read either faults with MemoryOutOfBounds or gives its body. -/
theorem checkedRead_cases (s : State) (n : Nat) (body : State) :
    (0 < n ∧ 4095 < s.i.toNat + (n - 1) ∧ checkedRead s n body = raiseFault .memoryOutOfBounds s) ∨
    ((n = 0 ∨ s.i.toNat + (n - 1) ≤ 4095) ∧ checkedRead s n body = .next body) := by
  unfold checkedRead State.rangeOut
  by_cases h : 0 < n ∧ 4095 < s.i.toNat + (n - 1)
  · exact .inl ⟨h.1, h.2, by simp [h]⟩
  · exact .inr ⟨by omega, by simp [h]⟩

/-- A checked write of at least one byte faults with MemoryOutOfBounds, faults with GlyphRegionWrite, or gives its
body. -/
theorem checkedWrite_cases (s : State) {n : Nat} (hn : 0 < n) (body : State) :
    (4095 < s.i.toNat + (n - 1) ∧ checkedWrite s n body = raiseFault .memoryOutOfBounds s) ∨
    (s.i.toNat + (n - 1) ≤ 4095 ∧ s.i.toNat ≤ 79 ∧ checkedWrite s n body = raiseFault .glyphRegionWrite s) ∨
    (s.i.toNat + (n - 1) ≤ 4095 ∧ 79 < s.i.toNat ∧ checkedWrite s n body = .next body) := by
  unfold checkedWrite State.rangeOut State.rangeInGlyphs
  by_cases h : 4095 < s.i.toNat + (n - 1)
  · exact .inl ⟨h, by simp [hn, h]⟩
  · by_cases hg : s.i.toNat ≤ 79
    · exact .inr (.inl ⟨by omega, hg, by simp [hn, h, hg]⟩)
    · exact .inr (.inr ⟨by omega, by omega, by simp [hn, h, hg]⟩)

@[simp] theorem storeRegs_glyphs (s : State) (n : Nat) : (storeRegs s n).glyphs = s.mem.glyphs := by
  induction n with
  | zero => rfl
  | succ n ih => simp [storeRegs, ih]

theorem storeRegs_wf {s : State} (h : s.mem.wf) (n : Nat) : (storeRegs s n).wf := by
  induction n with
  | zero => exact h
  | succ n ih => exact Memory.wf_write ih _ _

/-- Outside `I`..`I+n-1` the stored memory reads as before, in every state. -/
theorem storeRegs_read_outside (s : State) (n a : Nat) (h : a < s.i.toNat ∨ s.i.toNat + n ≤ a) :
    (storeRegs s n).read a = s.mem.read a := by
  induction n with
  | zero => rfl
  | succ n ih =>
    rw [storeRegs, Memory.read_write_of_ne _ _ (by unfold State.dataAddr; omega), ih (by omega)]

/-- Inside the range byte `k` is register `k`. -/
theorem storeRegs_read_inside {s : State} (hw : s.mem.wf) {n k : Nat} (hk : k < n) (hm : s.i.toNat + n ≤ 4096) :
    (storeRegs s n).read (s.i.toNat + k) = s.reg (BitVec.ofNat 4 k) := by
  induction n with
  | zero => omega
  | succ n ih =>
    rw [storeRegs]
    by_cases hkn : k = n
    · subst hkn
      exact Memory.read_write_self (storeRegs_wf hw k) _ (by unfold State.dataAddr; omega)
    · rw [Memory.read_write_of_ne _ _ (by unfold State.dataAddr; omega), ih (by omega) (by omega)]

/-- Loading registers changes nothing but registers. -/
theorem loadRegs_eq_x (s : State) (n : Nat) : loadRegs s n = { s with x := (loadRegs s n).x } := by
  induction n with
  | zero => rfl
  | succ n ih => simp only [loadRegs]; rw [ih]; rfl

/-- Register `r` is loaded from `I + r` when it is among the first `n`. -/
theorem loadRegs_reg (s : State) {n : Nat} (hn : n ≤ 16) (r : Nibble) :
    (loadRegs s n).reg r = if r.toNat < n then s.mem.read (s.i.toNat + r.toNat) else s.reg r := by
  induction n with
  | zero => simp [loadRegs]
  | succ n ih =>
    rw [loadRegs, State.reg_setReg]
    have hr : r = BitVec.ofNat 4 n ↔ r.toNat = n := by
      rw [← BitVec.toNat_inj, BitVec.toNat_ofNat, Nat.mod_eq_of_lt (by omega)]
    by_cases h : r.toNat = n
    · rw [if_pos (hr.mpr h), if_pos (by omega), State.dataAddr, h]
    · rw [if_neg (mt hr.mp h), ih (by omega)]
      by_cases h2 : r.toNat < n
      · rw [if_pos h2, if_pos (by omega)]
      · rw [if_neg h2, if_neg (by omega)]

end Sys2Proof.Machine
end

