-- ==== Sys2Proof/Laws/Engine.lean ====
section
/-! SUPPORT. Everything a STEP can do (spec/40_engine.md R100), and everything a body can do about faults and the
mode (R93, R96). -/

namespace Sys2Proof.Machine

/-! ## The step, by the mode and the fetch check -/

theorem step_waitKey {s : State} (h : s.mode = .waitKey) : step s = .next s.beginStep := by
  simp [step, stepWith, h]

theorem step_fault {s : State} (h : s.mode = .fault) : step s = .next s.beginStep := by
  simp [step, stepWith, h]

theorem step_fetchFails {s : State} (h : s.mode = .run) (hp : 4094 < s.pc.toNat) :
    step s = .next (s.beginStep.enterFault .fetchOutOfBounds s.pc) := by
  simp [step, stepWith, h, State.fetchFails, hp]

/-- A step that fetches runs the body of the decoded word on the state after the advance. -/
theorem step_fetched {s : State} (h : s.mode = .run) (hp : s.pc.toNat ≤ 4094) :
    step s = finishCycle (exec (decodeWord s.fetchedWord) s.beginStep.afterFetch) := by
  have hf : s.fetchFails = false := by simp [State.fetchFails]; omega
  simp [step, stepWith, h, hf]

theorem endCycle_run {t : State} (h : t.mode = .run) : t.endCycle = t.tick := by
  simp [State.endCycle, h]

theorem endCycle_not_run {t : State} (h : t.mode ≠ .run) : t.endCycle = t := by
  unfold State.endCycle
  split <;> simp_all

/-- The tick touches the timers and the sound output only. -/
theorem endCycle_eq (t : State) : t.endCycle = { t with
    dt := if t.mode = .run then timerDown t.dt else t.dt
    st := if t.mode = .run then timerDown t.st else t.st
    out := if t.mode = .run then { t.out with soundEvent := t.out.soundEvent || t.st == 1 } else t.out } := by
  by_cases h : t.mode = .run
  · simp [endCycle_run h, State.tick, h]
  · simp [endCycle_not_run h, h]

theorem timerDown_toNat (b : Byte) : (timerDown b).toNat = b.toNat - 1 := by
  unfold timerDown
  split
  · next h => simp [h]
  · next h =>
    have hb : 0 < b.toNat := by
      rcases Nat.eq_zero_or_pos b.toNat with h0 | h0
      · exact absurd (BitVec.eq_of_toNat_eq (by simpa using h0)) h
      · exact h0
    have := b.isLt
    rw [BitVec.toNat_sub]
    simp
    omega

/-- The advance does not wrap: a fetchable pc is at most 4094 (spec/40_engine.md R92). -/
theorem pc_advance {s : State} (h : s.pc.toNat ≤ 4094) : (s.pc + 2).toNat = s.pc.toNat + 2 := by
  rw [BitVec.toNat_add, show (2 : Word).toNat = 2 from rfl, Nat.mod_eq_of_lt (by omega)]

/-! ## The bodies -/

@[simp] theorem loadRegs_mode (s : State) (n : Nat) : (loadRegs s n).mode = s.mode := by
  rw [loadRegs_eq_x]

/-- A body raises exactly the fault the tables give it, or it runs to a next state, in the same mode unless it is
Fx0A. -/
theorem exec_cases (i : Instr) (s : State) :
    (bodyFault i s ≠ .none ∧ exec i s = raiseFault (bodyFault i s) s) ∨
    (bodyFault i s = .none ∧
      ∃ t, exec i s = .next t ∧ ((∀ x, i ≠ .ldKey x) → t.mode = s.mode)) := by
  cases i with
  | ret =>
    by_cases h : s.sp.val = 0
    · exact .inl (by simp [bodyFault, exec, execRet, h])
    · exact .inr (by simp [bodyFault, exec, execRet, h])
  | call nnn =>
    by_cases h : s.sp.val = 16
    · exact .inl (by simp [bodyFault, exec, execCall, h])
    · have h2 : s.sp.val < 16 := by omega
      exact .inr (by simp [bodyFault, exec, execCall, h, h2])
  | drw x y n =>
    simp only [bodyFault, exec, execDrw]
    rcases checkedRead_cases s n.toNat ({ s with
        fb := (drawRows s (s.reg x).toNat (s.reg y).toNat n.toNat).frame, dirty := true }.setReg 0xF#4
        (flagByte (drawRows s (s.reg x).toNat (s.reg y).toNat n.toNat).collision)) with ⟨h1, h2, h3⟩ | ⟨h1, h2⟩
    · rw [if_pos (by omega)]
      exact .inl ⟨by simp, h3⟩
    · rw [if_neg (by omega)]
      exact .inr ⟨rfl, _, h2, fun _ => rfl⟩
  | ldB x =>
    simp only [bodyFault, exec, execLdB]
    rcases checkedWrite_cases s (n := 3) (by omega) { s with
        mem := ((s.mem.write (s.dataAddr 0) (bcdHundreds (s.reg x))).write
          (s.dataAddr 1) (bcdTens (s.reg x))).write (s.dataAddr 2) (bcdOnes (s.reg x)) } with
      ⟨h1, h2⟩ | ⟨h1, h2, h3⟩ | ⟨h1, h2, h3⟩
    · rw [if_pos (by omega)]
      exact .inl ⟨by simp, h2⟩
    · rw [if_neg (by omega), if_pos h2]
      exact .inl ⟨by simp, h3⟩
    · rw [if_neg (by omega), if_neg (by omega)]
      exact .inr ⟨rfl, _, h3, fun _ => rfl⟩
  | store x =>
    simp only [bodyFault, exec, execStore]
    rcases checkedWrite_cases s (n := x.toNat + 1) (by omega) { s with mem := storeRegs s (x.toNat + 1) } with
      ⟨h1, h2⟩ | ⟨h1, h2, h3⟩ | ⟨h1, h2, h3⟩
    · rw [if_pos (by omega)]
      exact .inl ⟨by simp, h2⟩
    · rw [if_neg (by omega), if_pos h2]
      exact .inl ⟨by simp, h3⟩
    · rw [if_neg (by omega), if_neg (by omega)]
      exact .inr ⟨rfl, _, h3, fun _ => rfl⟩
  | load x =>
    simp only [bodyFault, exec, execLoad]
    rcases checkedRead_cases s (x.toNat + 1) (loadRegs s (x.toNat + 1)) with ⟨h1, h2, h3⟩ | ⟨h1, h2⟩
    · rw [if_pos (by omega)]
      exact .inl ⟨by simp, h3⟩
    · rw [if_neg (by omega)]
      exact .inr ⟨rfl, _, h2, fun _ => loadRegs_mode s _⟩
  | skp x =>
    by_cases h : 15 < (s.reg x).toNat
    · exact .inl (by simp [bodyFault, exec, execSkp, skipOnKey, h])
    · exact .inr (by simp [bodyFault, exec, execSkp, skipOnKey, h])
  | sknp x =>
    by_cases h : 15 < (s.reg x).toNat
    · exact .inl (by simp [bodyFault, exec, execSknp, skipOnKey, h])
    · exact .inr (by simp [bodyFault, exec, execSknp, skipOnKey, h])
  | ldKey x => exact .inr ⟨rfl, _, rfl, fun h => absurd rfl (h x)⟩
  | seImm x kk => exact .inr ⟨rfl, _, rfl, fun _ => by simp⟩
  | sneImm x kk => exact .inr ⟨rfl, _, rfl, fun _ => by simp⟩
  | seReg x y n => exact .inr ⟨rfl, _, rfl, fun _ => by simp⟩
  | sneReg x y n => exact .inr ⟨rfl, _, rfl, fun _ => by simp⟩
  | _ => exact .inr ⟨rfl, _, rfl, fun _ => rfl⟩

/-- A body always answers a next state. -/
theorem exec_next (i : Instr) (s : State) : ∃ t, exec i s = .next t := by
  rcases exec_cases i s with ⟨-, h⟩ | ⟨-, t, h, -⟩
  · exact ⟨_, h⟩
  · exact ⟨t, h⟩

/-- The tables' fault of a body is the same before the advance and after it: no check reads the pc. -/
theorem bodyFault_afterFetch (i : Instr) (s : State) : bodyFault i s.beginStep.afterFetch = bodyFault i s := by
  cases i <;> rfl

/-- Everything a STEP that fetches can do: take the tables' fault, or run the body to a state outside FAULT and end
the cycle. -/
theorem step_fetched_cases {s : State} {i : Instr} (h : Fetches s i) :
    (bodyFault i s ≠ .none ∧ step s = .next (s.beginStep.afterFetch.enterFault (bodyFault i s) s.pc)) ∨
    (bodyFault i s = .none ∧
      ∃ t, exec i s.beginStep.afterFetch = .next t ∧ t.mode ≠ .fault ∧ step s = .next t.endCycle) := by
  obtain ⟨hm, hp, hi⟩ := h
  have hs := step_fetched hm hp
  rw [show decodeWord s.fetchedWord = i from hi] at hs
  rcases exec_cases i s.beginStep.afterFetch with ⟨h1, h2⟩ | ⟨h1, t, h2, h3⟩ <;>
    rw [bodyFault_afterFetch] at h1
  · rw [bodyFault_afterFetch] at h2
    refine .inl ⟨h1, ?_⟩
    rw [hs, h2]
    simp [raiseFault, finishCycle, State.endCycle]
  · refine .inr ⟨h1, t, h2, ?_, by rw [hs, h2]; rfl⟩
    by_cases hk : ∃ x, i = .ldKey x
    · obtain ⟨x, rfl⟩ := hk
      cases h2
      simp
    · rw [h3 fun x hx => hk ⟨x, hx⟩]
      simp [hm]

end Sys2Proof.Machine
end

