-- ==== Sys2Proof/Laws/Frame.lean ====
section
/-! SUPPORT. The frame of every body: which parts of the state an instruction may change, and that it changes nothing
else. -/

namespace Sys2Proof.Machine

/-- The parts of the state the rules of spec/41_flow.md to spec/46_timers_keys.md have a body write when it does not
fault. -/
def bodyChanges : Instr → List Part
  | .cls => [.fb, .dirty]
  | .ret => [.pc, .sp]
  | .call _ => [.pc, .sp, .stack]
  | .jp _ | .jpV0 _ | .seImm _ _ | .sneImm _ _ | .seReg _ _ _ | .sneReg _ _ _ | .skp _ | .sknp _ => [.pc]
  | .ldImm _ _ | .addImm _ _ | .ldReg _ _ | .orReg _ _ | .andReg _ _ | .xorReg _ _ => [.regs]
  | .addReg _ _ | .subReg _ _ | .shr _ _ | .subnReg _ _ | .shl _ _ | .ldDT _ | .load _ => [.regs]
  | .rnd _ _ => [.regs, .draws]
  | .drw _ _ _ => [.regs, .fb, .dirty]
  | .ldI _ | .addI _ | .ldF _ => [.index]
  | .ldKey _ => [.mode, .waitX]
  | .setDT _ => [.dt]
  | .setST _ => [.st]
  | .ldB _ | .store _ => [.mem]
  | .unrec0 _ | .unrec8 _ _ _ | .unrecE _ _ | .unrecF _ _ => [.outputs]

/-- A part two states share is shared along a third. -/
theorem Part.same_trans {p : Part} {s t u : State} (h₁ : p.same s t) (h₂ : p.same t u) : p.same s u := by
  cases p <;> simp_all [Part.same]

theorem SameExcept.trans {ps qs : List Part} {s t u : State} (h₁ : SameExcept ps s t) (h₂ : SameExcept qs t u) :
    SameExcept (ps ++ qs) s u := by
  intro p hp
  rw [List.mem_append, not_or] at hp
  exact Part.same_trans (h₁ p hp.1) (h₂ p hp.2)

theorem SameExcept.mono {ps qs : List Part} {s t : State} (h : SameExcept ps s t) (hpq : ∀ p ∈ ps, p ∈ qs) :
    SameExcept qs s t :=
  fun p hp => h p fun hp' => hp (hpq p hp')

theorem setReg_frame (s : State) (r : Nibble) (v : Byte) : SameExcept [.regs] s (s.setReg r v) := by
  intro p hp
  cases p <;> simp_all [Part.same]

theorem setRegFlag_frame (s : State) (r : Nibble) (v f : Byte) : SameExcept [.regs] s (s.setRegFlag r v f) := by
  intro p hp
  cases p <;> simp_all [Part.same]

theorem skipIf_frame (s : State) (b : Bool) : SameExcept [.pc] s (s.skipIf b) := by
  intro p hp
  cases p <;> simp_all [Part.same]

theorem enterFault_frame (s : State) (c : FaultCode) (q : Word) :
    SameExcept [.pc, .mode, .faultCode, .faultPc] s (s.enterFault c q) := by
  intro p hp
  cases p <;> simp_all [Part.same]

theorem markIllegal_frame (s : State) : SameExcept [.outputs] s s.markIllegal := by
  intro p hp
  cases p <;> simp_all [Part.same]

/-- What a step changes before the body runs. -/
theorem afterFetch_frame (s : State) : SameExcept [.pc, .outputs, .loadOpen] s s.beginStep.afterFetch := by
  intro p hp
  cases p <;> simp_all [Part.same]

/-- What the end of a cycle changes. -/
theorem endCycle_frame (s : State) : SameExcept [.dt, .st, .outputs] s s.endCycle := by
  intro p hp
  rw [endCycle_eq]
  cases p <;> simp_all [Part.same, State.reg, State.keyDown]

theorem loadRegs_frame (s : State) (n : Nat) : SameExcept [.regs] s (loadRegs s n) := by
  intro p hp
  rw [loadRegs_eq_x]
  cases p <;> simp_all [Part.same, State.keyDown]

/-- A body that does not fault changes nothing but its parts. -/
theorem body_frame {i : Instr} {s t : State} (hb : bodyFault i s = .none) (h : exec i s = .next t) :
    SameExcept (bodyChanges i) s t := by
  cases i with
  | ret =>
    have hs : s.sp.val ≠ 0 := by intro h0; simp [bodyFault, h0] at hb
    simp only [exec, execRet, hs, if_false, Host.Outcome.next.injEq] at h
    subst h
    intro p hp
    cases p <;> simp_all [Part.same, bodyChanges, State.reg, State.keyDown]
  | call nnn =>
    have hs : s.sp.val < 16 := by
      by_contra h0
      simp [bodyFault, show s.sp.val = 16 by omega] at hb
    simp only [exec, execCall, hs, dif_pos, Host.Outcome.next.injEq] at h
    subst h
    intro p hp
    cases p <;> simp_all [Part.same, bodyChanges, State.reg, State.keyDown]
  | seImm x kk => cases h; exact skipIf_frame s _
  | sneImm x kk => cases h; exact skipIf_frame s _
  | seReg x y n => cases h; exact skipIf_frame s _
  | sneReg x y n => cases h; exact skipIf_frame s _
  | skp x =>
    have hx : ¬ 15 < (s.reg x).toNat := by intro h0; simp [bodyFault, h0] at hb
    rw [exec, execSkp, skipOnKey, if_neg hx] at h
    cases h
    exact skipIf_frame s _
  | sknp x =>
    have hx : ¬ 15 < (s.reg x).toNat := by intro h0; simp [bodyFault, h0] at hb
    rw [exec, execSknp, skipOnKey, if_neg hx] at h
    cases h
    exact skipIf_frame s _
  | drw x y n =>
    simp only [exec, execDrw] at h
    rcases checkedRead_cases s n.toNat ({ s with
        fb := (drawRows s (s.reg x).toNat (s.reg y).toNat n.toNat).frame, dirty := true }.setReg 0xF#4
        (flagByte (drawRows s (s.reg x).toNat (s.reg y).toNat n.toNat).collision)) with ⟨h1, h2, -⟩ | ⟨-, h2⟩
    · simp [bodyFault, show 0 < n.toNat ∧ 4095 < s.i.toNat + n.toNat - 1 by omega] at hb
    · rw [h2] at h
      cases h
      intro p hp
      cases p <;> simp_all [Part.same, bodyChanges, State.keyDown]
  | ldB x =>
    simp only [bodyFault] at hb
    simp only [exec, execLdB] at h
    rcases checkedWrite_cases s (n := 3) (by omega) { s with
        mem := ((s.mem.write (s.dataAddr 0) (bcdHundreds (s.reg x))).write
          (s.dataAddr 1) (bcdTens (s.reg x))).write (s.dataAddr 2) (bcdOnes (s.reg x)) } with
      ⟨h1, -⟩ | ⟨h1, h2, -⟩ | ⟨-, -, h3⟩
    · rw [if_pos (by omega)] at hb; cases hb
    · rw [if_neg (by omega), if_pos h2] at hb; cases hb
    · rw [h3] at h
      cases h
      intro p hp
      cases p <;> simp_all [Part.same, bodyChanges, State.reg, State.keyDown]
  | store x =>
    simp only [bodyFault] at hb
    simp only [exec, execStore] at h
    rcases checkedWrite_cases s (n := x.toNat + 1) (by omega) { s with mem := storeRegs s (x.toNat + 1) } with
      ⟨h1, -⟩ | ⟨h1, h2, -⟩ | ⟨-, -, h3⟩
    · rw [if_pos (by omega)] at hb; cases hb
    · rw [if_neg (by omega), if_pos h2] at hb; cases hb
    · rw [h3] at h
      cases h
      intro p hp
      cases p <;> simp_all [Part.same, bodyChanges, State.reg, State.keyDown]
  | load x =>
    simp only [exec, execLoad] at h
    rcases checkedRead_cases s (x.toNat + 1) (loadRegs s (x.toNat + 1)) with ⟨h1, h2, -⟩ | ⟨-, h2⟩
    · simp [bodyFault, show 4095 < s.i.toNat + x.toNat by omega] at hb
    · rw [h2] at h
      cases h
      exact loadRegs_frame s _
  | addReg x y => cases h; exact setRegFlag_frame s _ _ _
  | subReg x y => cases h; exact setRegFlag_frame s _ _ _
  | shr x y => cases h; exact setRegFlag_frame s _ _ _
  | subnReg x y => cases h; exact setRegFlag_frame s _ _ _
  | shl x y => cases h; exact setRegFlag_frame s _ _ _
  | ldImm x kk => cases h; exact setReg_frame s _ _
  | addImm x kk => cases h; exact setReg_frame s _ _
  | ldReg x y => cases h; exact setReg_frame s _ _
  | orReg x y => cases h; exact setReg_frame s _ _
  | andReg x y => cases h; exact setReg_frame s _ _
  | xorReg x y => cases h; exact setReg_frame s _ _
  | ldDT x => cases h; exact setReg_frame s _ _
  | unrec0 nnn => cases h; exact markIllegal_frame s
  | unrec8 x y n => cases h; exact markIllegal_frame s
  | unrecE x kk => cases h; exact markIllegal_frame s
  | unrecF x kk => cases h; exact markIllegal_frame s
  | _ =>
    cases h
    intro p hp
    cases p <;> simp_all [Part.same, bodyChanges, State.reg, State.keyDown]

/-- A body changes nothing but its parts and what a fault writes. -/
theorem exec_frame {i : Instr} {s t : State} (h : exec i s = .next t) :
    SameExcept (bodyChanges i ++ [.pc, .mode, .faultCode, .faultPc]) s t := by
  rcases exec_cases i s with ⟨-, h2⟩ | ⟨h1, -⟩
  · rw [h2] at h
    cases h
    exact (enterFault_frame s _ _).mono fun p hp => by simp [List.mem_append, hp]
  · exact (body_frame h1 h).mono fun p hp => by simp [List.mem_append, hp]

end Sys2Proof.Machine
end

