-- ==== Sys2Proof/Laws/HostOps.lean ====
section
/-! SUPPORT. The laws of the host's operations: what LOAD copies (spec/70_reset_and_hazards.md R201), and that STEP as
a host operation is `step`. -/

namespace Sys2Proof.Machine

@[simp] theorem loadBytes_glyphs (m : Memory) (a : Nat) (l : List Byte) : (loadBytes m a l).glyphs = m.glyphs := by
  induction l generalizing m a with
  | nil => rfl
  | cons b l ih => simp [loadBytes, ih]

theorem loadBytes_wf {m : Memory} (h : m.wf) (a : Nat) (l : List Byte) : (loadBytes m a l).wf := by
  induction l generalizing m a with
  | nil => exact h
  | cons b l ih => exact ih (Memory.wf_write h _ _) _

/-- Outside the image nothing changes. -/
theorem loadBytes_outside (m : Memory) (a : Nat) (l : List Byte) {b : Nat} (h : b < a ∨ a + l.length ≤ b) :
    (loadBytes m a l).read b = m.read b := by
  induction l generalizing m a with
  | nil => rfl
  | cons c l ih =>
    simp only [List.length_cons] at h
    rw [loadBytes, ih _ _ (by omega), Memory.read_write_of_ne _ _ (by omega)]

/-- Byte `k` of the image is at `a + k`. -/
theorem loadBytes_inside {m : Memory} (hw : m.wf) (a : Nat) (l : List Byte) {k : Nat} (hk : k < l.length)
    (h : a + l.length ≤ 4096) : (loadBytes m a l).read (a + k) = l[k] := by
  induction l generalizing m a k with
  | nil => simp at hk
  | cons c l ih =>
    simp only [List.length_cons] at h hk
    rw [loadBytes]
    cases k with
    | zero =>
      rw [loadBytes_outside _ _ _ (by omega), Nat.add_zero, Memory.read_write_self hw _ (by omega)]
      rfl
    | succ k =>
      have h2 := ih (Memory.wf_write hw a c) (a + 1) (k := k) (by omega) (by omega)
      rw [show a + (k + 1) = a + 1 + k by omega, h2]
      rfl

/-- STEP as a host operation. -/
theorem step_of_hostOp {s t : State} (h : hostOp .step s = .done t ∨ hostOp .step s = .loadFailure t) :
    step s = .next t := by
  rcases h with h | h <;> simp only [hostOp] at h <;> cases hs : step s <;> rw [hs] at h <;> cases h
  rfl

@[simp] theorem State.keyPress_mem (s : State) (k : Nibble) : (s.keyPress k).mem = s.mem := by
  unfold State.keyPress
  split <;> rfl

end Sys2Proof.Machine
end

