-- ==== Sys2Proof/Laws/PerInstr.lean ====
section
/-! SUPPORT. Statements for all instructions, made per instruction. Family EncodesGroup: the top nibble of an
instruction's word is its group (spec/30_encoding.md R73, R82). -/

namespace Sys2Proof.Laws

/-- The group of an instruction, by the pattern column of R82. -/
def groupOf : Instr → Nibble
  | .cls => 0x0
  | .ret => 0x0
  | .jp _ => 0x1
  | .call _ => 0x2
  | .seImm _ _ => 0x3
  | .sneImm _ _ => 0x4
  | .seReg _ _ _ => 0x5
  | .ldImm _ _ => 0x6
  | .addImm _ _ => 0x7
  | .ldReg _ _ => 0x8
  | .orReg _ _ => 0x8
  | .andReg _ _ => 0x8
  | .xorReg _ _ => 0x8
  | .addReg _ _ => 0x8
  | .subReg _ _ => 0x8
  | .shr _ _ => 0x8
  | .subnReg _ _ => 0x8
  | .shl _ _ => 0x8
  | .sneReg _ _ _ => 0x9
  | .ldI _ => 0xA
  | .jpV0 _ => 0xB
  | .rnd _ _ => 0xC
  | .drw _ _ _ => 0xD
  | .skp _ => 0xE
  | .sknp _ => 0xE
  | .ldDT _ => 0xF
  | .ldKey _ => 0xF
  | .setDT _ => 0xF
  | .setST _ => 0xF
  | .addI _ => 0xF
  | .ldF _ => 0xF
  | .ldB _ => 0xF
  | .store _ => 0xF
  | .load _ => 0xF
  | .unrec0 _ => 0x0
  | .unrec8 _ _ _ => 0x8
  | .unrecE _ _ => 0xE
  | .unrecF _ _ => 0xF

/-- The word an instruction encodes to belongs to the instruction's group. -/
def EncodesGroup.Statement (i : Instr) : Prop := fieldG (encode i) = groupOf i

theorem EncodesGroup.cls : EncodesGroup.Statement .cls := by
  unfold EncodesGroup.Statement
  decide
theorem EncodesGroup.ret : EncodesGroup.Statement .ret := by
  unfold EncodesGroup.Statement
  decide
theorem EncodesGroup.jp (nnn : Addr12) : EncodesGroup.Statement (.jp nnn) := fieldG_addr _ _
theorem EncodesGroup.call (nnn : Addr12) : EncodesGroup.Statement (.call nnn) := fieldG_addr _ _
theorem EncodesGroup.seImm (x : Nibble) (kk : Byte) : EncodesGroup.Statement (.seImm x kk) := fieldG_imm _ _ _
theorem EncodesGroup.sneImm (x : Nibble) (kk : Byte) : EncodesGroup.Statement (.sneImm x kk) := fieldG_imm _ _ _
theorem EncodesGroup.seReg (x : Nibble) (y : Nibble) (n : Nibble) : EncodesGroup.Statement (.seReg x y n) := fieldG_regs _ _ _ _
theorem EncodesGroup.ldImm (x : Nibble) (kk : Byte) : EncodesGroup.Statement (.ldImm x kk) := fieldG_imm _ _ _
theorem EncodesGroup.addImm (x : Nibble) (kk : Byte) : EncodesGroup.Statement (.addImm x kk) := fieldG_imm _ _ _
theorem EncodesGroup.ldReg (x : Nibble) (y : Nibble) : EncodesGroup.Statement (.ldReg x y) := fieldG_regs _ _ _ _
theorem EncodesGroup.orReg (x : Nibble) (y : Nibble) : EncodesGroup.Statement (.orReg x y) := fieldG_regs _ _ _ _
theorem EncodesGroup.andReg (x : Nibble) (y : Nibble) : EncodesGroup.Statement (.andReg x y) := fieldG_regs _ _ _ _
theorem EncodesGroup.xorReg (x : Nibble) (y : Nibble) : EncodesGroup.Statement (.xorReg x y) := fieldG_regs _ _ _ _
theorem EncodesGroup.addReg (x : Nibble) (y : Nibble) : EncodesGroup.Statement (.addReg x y) := fieldG_regs _ _ _ _
theorem EncodesGroup.subReg (x : Nibble) (y : Nibble) : EncodesGroup.Statement (.subReg x y) := fieldG_regs _ _ _ _
theorem EncodesGroup.shr (x : Nibble) (y : Nibble) : EncodesGroup.Statement (.shr x y) := fieldG_regs _ _ _ _
theorem EncodesGroup.subnReg (x : Nibble) (y : Nibble) : EncodesGroup.Statement (.subnReg x y) := fieldG_regs _ _ _ _
theorem EncodesGroup.shl (x : Nibble) (y : Nibble) : EncodesGroup.Statement (.shl x y) := fieldG_regs _ _ _ _
theorem EncodesGroup.sneReg (x : Nibble) (y : Nibble) (n : Nibble) : EncodesGroup.Statement (.sneReg x y n) := fieldG_regs _ _ _ _
theorem EncodesGroup.ldI (nnn : Addr12) : EncodesGroup.Statement (.ldI nnn) := fieldG_addr _ _
theorem EncodesGroup.jpV0 (nnn : Addr12) : EncodesGroup.Statement (.jpV0 nnn) := fieldG_addr _ _
theorem EncodesGroup.rnd (x : Nibble) (kk : Byte) : EncodesGroup.Statement (.rnd x kk) := fieldG_imm _ _ _
theorem EncodesGroup.drw (x : Nibble) (y : Nibble) (n : Nibble) : EncodesGroup.Statement (.drw x y n) := fieldG_regs _ _ _ _
theorem EncodesGroup.skp (x : Nibble) : EncodesGroup.Statement (.skp x) := fieldG_imm _ _ _
theorem EncodesGroup.sknp (x : Nibble) : EncodesGroup.Statement (.sknp x) := fieldG_imm _ _ _
theorem EncodesGroup.ldDT (x : Nibble) : EncodesGroup.Statement (.ldDT x) := fieldG_imm _ _ _
theorem EncodesGroup.ldKey (x : Nibble) : EncodesGroup.Statement (.ldKey x) := fieldG_imm _ _ _
theorem EncodesGroup.setDT (x : Nibble) : EncodesGroup.Statement (.setDT x) := fieldG_imm _ _ _
theorem EncodesGroup.setST (x : Nibble) : EncodesGroup.Statement (.setST x) := fieldG_imm _ _ _
theorem EncodesGroup.addI (x : Nibble) : EncodesGroup.Statement (.addI x) := fieldG_imm _ _ _
theorem EncodesGroup.ldF (x : Nibble) : EncodesGroup.Statement (.ldF x) := fieldG_imm _ _ _
theorem EncodesGroup.ldB (x : Nibble) : EncodesGroup.Statement (.ldB x) := fieldG_imm _ _ _
theorem EncodesGroup.store (x : Nibble) : EncodesGroup.Statement (.store x) := fieldG_imm _ _ _
theorem EncodesGroup.load (x : Nibble) : EncodesGroup.Statement (.load x) := fieldG_imm _ _ _
theorem EncodesGroup.unrec0 (nnn : Addr12) : EncodesGroup.Statement (.unrec0 nnn) := fieldG_addr _ _
theorem EncodesGroup.unrec8 (x : Nibble) (y : Nibble) (n : Nibble) : EncodesGroup.Statement (.unrec8 x y n) := fieldG_regs _ _ _ _
theorem EncodesGroup.unrecE (x : Nibble) (kk : Byte) : EncodesGroup.Statement (.unrecE x kk) := fieldG_imm _ _ _
theorem EncodesGroup.unrecF (x : Nibble) (kk : Byte) : EncodesGroup.Statement (.unrecF x kk) := fieldG_imm _ _ _

end Sys2Proof.Laws
end

