-- ==== Sys2Proof/Laws/Step.lean ====
section
/-! SUPPORT. What a STEP does around its body, in the form later proofs cite: the step of a fetched instruction, the
outputs a body leaves, the advance and the fetch address on numbers, and the widening of literals. -/

namespace Sys2Proof.Machine

/-! ## Numbers -/

theorem zext12_toNat (nnn : Addr12) : (zext12 nnn).toNat = nnn.toNat := by
  have := nnn.isLt
  rw [zext12, BitVec.toNat_setWidth]
  omega

theorem zext8_toNat (b : Byte) : (zext8 b).toNat = b.toNat := by
  have := b.isLt
  rw [zext8, BitVec.toNat_setWidth]
  omega

/-- Inside a body the fetch address is two below the pc. -/
theorem fetchPc_toNat {s : State} (h : AfterAdvance s) : s.fetchPc.toNat + 2 = s.pc.toNat := by
  obtain ⟨h1, h2⟩ := h
  rw [State.fetchPc, BitVec.toNat_sub, show (2 : Word).toNat = 2 from rfl]
  omega

/-- A skip on numbers: from the state after the advance it does not wrap. -/
theorem skipIf_pc_toNat {s : State} (h : AfterAdvance s) (b : Bool) :
    (s.skipIf b).pc.toNat = if b then s.pc.toNat + 2 else s.pc.toNat := by
  have h2 := h.2
  cases b
  · rfl
  · rw [State.skipIf_pc, if_pos rfl, if_pos rfl, BitVec.toNat_add, show (2 : Word).toNat = 2 from rfl]
    omega

theorem afterFetch_afterAdvance {s : State} (h : s.pc.toNat ≤ 4094) : AfterAdvance s.beginStep.afterFetch := by
  have h2 : s.beginStep.afterFetch.pc.toNat = s.pc.toNat + 2 := pc_advance h
  exact ⟨by omega, by omega⟩

/-- The fault entry of a body, as claims state it. -/
theorem raiseFault_entersFault {s : State} (h : AfterAdvance s) (c : FaultCode) :
    EntersFault c (s.pc.toNat - 2) s (s.enterFault c s.fetchPc) := by
  have h2 := fetchPc_toNat h
  exact ⟨rfl, rfl, by simp; omega, by simp; omega, enterFault_frame _ _ _⟩

/-! ## What the end of a cycle leaves alone -/

@[simp] theorem State.endCycle_mem (t : State) : t.endCycle.mem = t.mem := by rw [endCycle_eq]
@[simp] theorem State.endCycle_x (t : State) : t.endCycle.x = t.x := by rw [endCycle_eq]
@[simp] theorem State.endCycle_i (t : State) : t.endCycle.i = t.i := by rw [endCycle_eq]
@[simp] theorem State.endCycle_pc (t : State) : t.endCycle.pc = t.pc := by rw [endCycle_eq]
@[simp] theorem State.endCycle_stack (t : State) : t.endCycle.stack = t.stack := by rw [endCycle_eq]
@[simp] theorem State.endCycle_sp (t : State) : t.endCycle.sp = t.sp := by rw [endCycle_eq]
@[simp] theorem State.endCycle_key (t : State) : t.endCycle.key = t.key := by rw [endCycle_eq]
@[simp] theorem State.endCycle_fb (t : State) : t.endCycle.fb = t.fb := by rw [endCycle_eq]
@[simp] theorem State.endCycle_dirty (t : State) : t.endCycle.dirty = t.dirty := by rw [endCycle_eq]
@[simp] theorem State.endCycle_mode (t : State) : t.endCycle.mode = t.mode := by rw [endCycle_eq]
@[simp] theorem State.endCycle_waitX (t : State) : t.endCycle.waitX = t.waitX := by rw [endCycle_eq]
@[simp] theorem State.endCycle_faultCode (t : State) : t.endCycle.faultCode = t.faultCode := by rw [endCycle_eq]
@[simp] theorem State.endCycle_faultPc (t : State) : t.endCycle.faultPc = t.faultPc := by rw [endCycle_eq]
@[simp] theorem State.endCycle_draws (t : State) : t.endCycle.draws = t.draws := by rw [endCycle_eq]
@[simp] theorem State.endCycle_loadOpen (t : State) : t.endCycle.loadOpen = t.loadOpen := by rw [endCycle_eq]

@[simp] theorem State.reg_endCycle (t : State) (r : Nibble) : t.endCycle.reg r = t.reg r := by
  rw [endCycle_eq]
  rfl

@[simp] theorem State.keyDown_endCycle (t : State) (k : Nibble) : t.endCycle.keyDown k = t.keyDown k := by
  rw [endCycle_eq]
  rfl

/-! ## The step by its instruction -/

/-- A STEP that fetches `i` is the body of `i` on the state after the advance, and the end of the cycle. -/
theorem step_of_fetches {s : State} {i : Instr} (h : Fetches s i) :
    ∃ t, exec i s.beginStep.afterFetch = .next t ∧ step s = .next t.endCycle := by
  obtain ⟨hm, hp, hi⟩ := h
  obtain ⟨t, ht⟩ := exec_next i s.beginStep.afterFetch
  refine ⟨t, ht, ?_⟩
  rw [step_fetched hm hp, show decodeWord s.fetchedWord = i from hi, ht]
  rfl

theorem fetches_of_run {s : State} (hm : s.mode = .run) (hp : s.pc.toNat ≤ 4094) :
    Fetches s (decodeWord s.fetchedWord) :=
  ⟨hm, hp, rfl⟩

/-- What a STEP answers, in its four cases. -/
theorem step_cases (s : State) :
    (s.mode = .waitKey ∧ step s = .next s.beginStep) ∨ (s.mode = .fault ∧ step s = .next s.beginStep) ∨
    (s.mode = .run ∧ 4094 < s.pc.toNat ∧ step s = .next (s.beginStep.enterFault .fetchOutOfBounds s.pc)) ∨
    ∃ i t, Fetches s i ∧ exec i s.beginStep.afterFetch = .next t ∧ step s = .next t.endCycle := by
  rcases h : s.mode with _ | _ | _
  · by_cases hp : 4094 < s.pc.toNat
    · exact .inr (.inr (.inl ⟨rfl, hp, step_fetchFails h hp⟩))
    · have hf := fetches_of_run h (by omega)
      obtain ⟨t, h1, h2⟩ := step_of_fetches hf
      exact .inr (.inr (.inr ⟨_, t, hf, h1, h2⟩))
  · exact .inl ⟨rfl, step_waitKey h⟩
  · exact .inr (.inl ⟨rfl, step_fault h⟩)

/-- The body of an UNRECOGNIZED word. -/
theorem exec_of_isUnrecognized {i : Instr} (h : isUnrecognized i = true) (s : State) :
    exec i s = .next s.markIllegal := by
  cases i <;> first | rfl | cases h

/-- A body leaves the outputs alone, unless the word is UNRECOGNIZED. -/
theorem exec_out {i : Instr} {s t : State} (h : exec i s = .next t) :
    t.out = if isUnrecognized i then { s.out with illegalEvent := true } else s.out := by
  cases hu : isUnrecognized i with
  | true => rw [exec_of_isUnrecognized hu] at h; cases h; rfl
  | false =>
    have hf : Part.outputs ∉ bodyChanges i ++ [.pc, .mode, .faultCode, .faultPc] := by
      cases i <;> simp_all [bodyChanges, isUnrecognized]
    exact exec_frame h .outputs hf

/-! ## Memory -/

/-- No body but Fx33's and Fx55's touches memory (spec/20_memory.md R56). -/
theorem exec_mem_eq {i : Instr} {s t : State} (h : exec i s = .next t) (h1 : ∀ x, i ≠ .ldB x)
    (h2 : ∀ x, i ≠ .store x) : t.mem = s.mem := by
  cases i with
  | ret => simp only [exec, execRet, raiseFault] at h; split at h <;> cases h <;> rfl
  | call nnn => simp only [exec, execCall, raiseFault] at h; split at h <;> cases h <;> rfl
  | skp x => simp only [exec, execSkp, skipOnKey, raiseFault] at h; split at h <;> cases h <;> simp
  | sknp x => simp only [exec, execSknp, skipOnKey, raiseFault] at h; split at h <;> cases h <;> simp
  | drw x y n => simp only [exec, execDrw, checkedRead, raiseFault] at h; split at h <;> cases h <;> rfl
  | load x => simp only [exec, execLoad, checkedRead, raiseFault] at h; split at h <;> cases h <;> first | rfl | rw [loadRegs_eq_x]
  | ldB x => exact absurd rfl (h1 x)
  | store x => exact absurd rfl (h2 x)
  | seImm x kk => cases h; simp
  | sneImm x kk => cases h; simp
  | seReg x y n => cases h; simp
  | sneReg x y n => cases h; simp
  | _ => cases h; rfl

/-- What a body does to memory: the parameter GLYPHS and the canonical form stay, and a byte that changes is in the
range of an Fx33 or an Fx55, in 80..4095. -/
theorem exec_mem {i : Instr} {s t : State} (h : exec i s = .next t) :
    t.mem.glyphs = s.mem.glyphs ∧ (s.mem.wf → t.mem.wf) ∧
      ∀ a, t.mem.read a ≠ s.mem.read a → 80 ≤ a ∧ a ≤ 4095 ∧ s.i.toNat ≤ a ∧
        ((∃ x, i = .ldB x ∧ a ≤ s.i.toNat + 2) ∨ (∃ x, i = .store x ∧ a ≤ s.i.toNat + x.toNat)) := by
  by_cases h1 : ∃ x, i = .ldB x
  · obtain ⟨x, rfl⟩ := h1
    rcases checkedWrite_cases s (n := 3) (by omega) { s with
        mem := ((s.mem.write (s.dataAddr 0) (bcdHundreds (s.reg x))).write
          (s.dataAddr 1) (bcdTens (s.reg x))).write (s.dataAddr 2) (bcdOnes (s.reg x)) } with
      ⟨-, h4⟩ | ⟨-, -, h4⟩ | ⟨h2, h3, h4⟩ <;> rw [show exec (.ldB x) s = _ from h4] at h <;> cases h
    · simp
    · simp
    refine ⟨by simp, fun hw => Memory.wf_write (Memory.wf_write (Memory.wf_write hw _ _) _ _) _ _, fun a ha => ?_⟩
    have : s.i.toNat ≤ a ∧ a ≤ s.i.toNat + 2 := by
      by_contra hc
      apply ha
      show (((s.mem.write (s.dataAddr 0) (bcdHundreds (s.reg x))).write (s.dataAddr 1) (bcdTens (s.reg x))).write
        (s.dataAddr 2) (bcdOnes (s.reg x))).read a = _
      simp only [State.dataAddr]
      rw [Memory.read_write_of_ne _ _ (by omega), Memory.read_write_of_ne _ _ (by omega),
        Memory.read_write_of_ne _ _ (by omega)]
    exact ⟨by omega, by omega, by omega, .inl ⟨x, rfl, by omega⟩⟩
  by_cases h2 : ∃ x, i = .store x
  · obtain ⟨x, rfl⟩ := h2
    rcases checkedWrite_cases s (n := x.toNat + 1) (by omega) { s with mem := storeRegs s (x.toNat + 1) } with
      ⟨-, h4⟩ | ⟨-, -, h4⟩ | ⟨h2, h3, h4⟩ <;> rw [show exec (.store x) s = _ from h4] at h <;> cases h
    · simp
    · simp
    refine ⟨by simp, fun hw => storeRegs_wf hw _, fun a ha => ?_⟩
    have : s.i.toNat ≤ a ∧ a < s.i.toNat + (x.toNat + 1) := by
      by_contra hc
      apply ha
      exact storeRegs_read_outside _ _ _ (by omega)
    exact ⟨by omega, by omega, by omega, .inr ⟨x, rfl, by omega⟩⟩
  have := exec_mem_eq h (fun x hx => h1 ⟨x, hx⟩) (fun x hx => h2 ⟨x, hx⟩)
  simp [this]

end Sys2Proof.Machine
end

