-- ==== Sys2Proof/Laws/Stack.lean ====
section
/-! SUPPORT. What the entries of the return stack can reach (spec/10_state.md R28): no body but RET's reads one, and
RET's only for the pc. -/

namespace Sys2Proof.Machine

theorem drawRows_withStack (s : State) (v : Vector Word 16) (ox oy n : Nat) :
    drawRows { s with stack := v } ox oy n = drawRows s ox oy n := by
  induction n with
  | zero => rfl
  | succ n ih => simp only [drawRows, ih]; rfl

theorem storeRegs_withStack (s : State) (v : Vector Word 16) (n : Nat) :
    storeRegs { s with stack := v } n = storeRegs s n := by
  induction n with
  | zero => rfl
  | succ n ih => simp only [storeRegs, ih]; rfl

theorem loadRegs_withStack (s : State) (v : Vector Word 16) (n : Nat) :
    loadRegs { s with stack := v } n = { loadRegs s n with stack := v } := by
  induction n with
  | zero => rfl
  | succ n ih => simp only [loadRegs, ih]; rfl

theorem skipIf_withStack (s : State) (v : Vector Word 16) (b : Bool) :
    { s with stack := v }.skipIf b = { s.skipIf b with stack := v } := by
  cases b <;> rfl

/-- With other stack entries a body leaves the same state but for the stack and, where it is RET's, the pc. -/
theorem exec_withStack {i : Instr} {s t : State} (v : Vector Word 16) (h : exec i s = .next t) :
    ∃ w p, exec i { s with stack := v } = .next { t with stack := w, pc := p } ∧ (i ≠ .ret → p = t.pc) := by
  cases i with
  | ret =>
    simp only [exec, execRet, raiseFault] at h ⊢
    split at h <;> cases h <;> rename_i hs
    · exact ⟨v, _, if_pos hs, by simp⟩
    · exact ⟨v, _, if_neg hs, by simp⟩
  | call n =>
    simp only [exec, execCall, raiseFault] at h ⊢
    split at h <;> cases h <;> rename_i hs
    · exact ⟨_, _, dif_pos hs, fun _ => rfl⟩
    · exact ⟨v, _, dif_neg hs, fun _ => rfl⟩
  | drw x y n =>
    simp only [exec, execDrw, checkedRead, raiseFault] at h ⊢
    rw [drawRows_withStack]
    split at h <;> cases h <;> rename_i hs
    · exact ⟨v, _, if_pos hs, fun _ => rfl⟩
    · exact ⟨v, _, if_neg hs, fun _ => rfl⟩
  | load x =>
    simp only [exec, execLoad, checkedRead, raiseFault] at h ⊢
    rw [loadRegs_withStack]
    split at h <;> cases h <;> rename_i hs
    · exact ⟨v, _, if_pos hs, fun _ => rfl⟩
    · exact ⟨v, _, if_neg hs, fun _ => rfl⟩
  | store x =>
    simp only [exec, execStore, checkedWrite, raiseFault] at h ⊢
    rw [storeRegs_withStack]
    split at h
    · cases h; rename_i hs; exact ⟨v, _, if_pos hs, fun _ => rfl⟩
    · split at h <;> cases h <;> rename_i h1 hs
      · exact ⟨v, _, (if_neg h1).trans (if_pos hs), fun _ => rfl⟩
      · exact ⟨v, _, (if_neg h1).trans (if_neg hs), fun _ => rfl⟩
  | ldB x =>
    simp only [exec, execLdB, checkedWrite, raiseFault] at h ⊢
    split at h
    · cases h; rename_i hs; exact ⟨v, _, if_pos hs, fun _ => rfl⟩
    · split at h <;> cases h <;> rename_i h1 hs
      · exact ⟨v, _, (if_neg h1).trans (if_pos hs), fun _ => rfl⟩
      · exact ⟨v, _, (if_neg h1).trans (if_neg hs), fun _ => rfl⟩
  | skp x =>
    simp only [exec, execSkp, skipOnKey, raiseFault] at h ⊢
    rw [skipIf_withStack]
    split at h <;> cases h <;> rename_i hs
    · exact ⟨v, _, if_pos hs, fun _ => rfl⟩
    · exact ⟨v, _, if_neg hs, fun _ => rfl⟩
  | sknp x =>
    simp only [exec, execSknp, skipOnKey, raiseFault] at h ⊢
    rw [skipIf_withStack]
    split at h <;> cases h <;> rename_i hs
    · exact ⟨v, _, if_pos hs, fun _ => rfl⟩
    · exact ⟨v, _, if_neg hs, fun _ => rfl⟩
  | seImm x kk => cases h; exact ⟨v, _, congrArg _ (skipIf_withStack s v _), fun _ => rfl⟩
  | sneImm x kk => cases h; exact ⟨v, _, congrArg _ (skipIf_withStack s v _), fun _ => rfl⟩
  | seReg x y n => cases h; exact ⟨v, _, congrArg _ (skipIf_withStack s v _), fun _ => rfl⟩
  | sneReg x y n => cases h; exact ⟨v, _, congrArg _ (skipIf_withStack s v _), fun _ => rfl⟩
  | _ => cases h; exact ⟨v, _, rfl, fun _ => rfl⟩

end Sys2Proof.Machine
end

