-- ==== Sys2Proof/Tests/Slice0.lean ====
section
/-! SUPPORT. The author's tests: the well-formedness smoke, one word of every constructor written out from
spec/30_encoding.md R82, one-step tests from spec/95_test_vectors.md (V1, V2, ... and E3, E4, ... are its names), and
for every statement with hypotheses a witness that meets them. -/

set_option maxRecDepth 8000

namespace Sys2Proof.Tests

open Sys2Proof.Machine

/-! ## Helpers -/

/-- The state after reset with `w` at 0x200 and the registers given. -/
def start (w : Word) (regs : List (Nibble × Byte)) : State :=
  regs.foldl (fun s p => s.setReg p.1 p.2) (State.reset.placeWord w)

/-- The same with `w` at `pc`. -/
def startAt (pc w : Word) (regs : List (Nibble × Byte)) : State :=
  regs.foldl (fun s p => s.setReg p.1 p.2) ({ State.reset with pc := pc }.placeWord w)

/-- `s` with the bytes from `a` on. -/
def poke (s : State) (a : Nat) (bytes : List Byte) : State := { s with mem := loadBytes s.mem a bytes }

/-- `s` with the cell lit. -/
def light (s : State) (cx cy : Nat) : State := { s with fb := frameToggle s.fb cx cy }

/-- The outcome is a next state with the property. -/
def answers (o : Host.Outcome State Fault Refusal) (p : State → Bool) : Bool :=
  match o with
  | .next t => p t
  | .fault _ => false
  | .refused _ => false

/-- One STEP gives a next state with the property. -/
def gives (s : State) (p : State → Bool) : Bool := answers (step s) p

/-- A state in FAULT with the code, pc and `fault_pc` at the address. -/
def inFault (c : FaultCode) (a : Word) (t : State) : Bool :=
  t.mode == .fault && t.faultCode == c && t.faultPc == a && t.pc == a

/-- `s` as its body sees it: after the advance. -/
def inBody (s : State) : State := s.beginStep.afterFetch

/-! ## Well-formedness: a term each check refuses -/

theorem test_wf_unrec0_cls : ¬ (Instr.unrec0 0x0E0).WellFormed := by decide
theorem test_wf_unrec0_ret : ¬ (Instr.unrec0 0x0EE).WellFormed := by decide
theorem test_wf_unrec8 : ¬ (Instr.unrec8 1 2 0xE).WellFormed := by decide
theorem test_wf_unrecE : ¬ (Instr.unrecE 5 0xA1).WellFormed := by decide
theorem test_wf_unrecF : ¬ (Instr.unrecF 5 0x65).WellFormed := by decide

/-! ## A word of every constructor, from the patterns of R82 -/

theorem test_decode_cls : decodeWord 0b0000000011100000#16 = .cls ∧ encode (.cls) = 0b0000000011100000#16 := by decide
theorem test_decode_ret : decodeWord 0b0000000011101110#16 = .ret ∧ encode (.ret) = 0b0000000011101110#16 := by decide
theorem test_decode_jp : decodeWord 0b0001101010111100#16 = .jp 0xABC ∧ encode (.jp 0xABC) = 0b0001101010111100#16 := by decide
theorem test_decode_call : decodeWord 0b0010000100100011#16 = .call 0x123 ∧ encode (.call 0x123) = 0b0010000100100011#16 := by decide
theorem test_decode_seImm : decodeWord 0b0011010110100111#16 = .seImm 5 0xA7 ∧ encode (.seImm 5 0xA7) = 0b0011010110100111#16 := by decide
theorem test_decode_sneImm : decodeWord 0b0100110000000001#16 = .sneImm 0xC 0x01 ∧ encode (.sneImm 0xC 0x01) = 0b0100110000000001#16 := by decide
theorem test_decode_seReg : decodeWord 0b0101001101110001#16 = .seReg 3 7 1 ∧ encode (.seReg 3 7 1) = 0b0101001101110001#16 := by decide
theorem test_decode_ldImm : decodeWord 0b0110111110000001#16 = .ldImm 0xF 0x81 ∧ encode (.ldImm 0xF 0x81) = 0b0110111110000001#16 := by decide
theorem test_decode_addImm : decodeWord 0b0111000111111110#16 = .addImm 1 0xFE ∧ encode (.addImm 1 0xFE) = 0b0111000111111110#16 := by decide
theorem test_decode_ldReg : decodeWord 0b1000001001010000#16 = .ldReg 2 5 ∧ encode (.ldReg 2 5) = 0b1000001001010000#16 := by decide
theorem test_decode_orReg : decodeWord 0b1000001001010001#16 = .orReg 2 5 ∧ encode (.orReg 2 5) = 0b1000001001010001#16 := by decide
theorem test_decode_andReg : decodeWord 0b1000001001010010#16 = .andReg 2 5 ∧ encode (.andReg 2 5) = 0b1000001001010010#16 := by decide
theorem test_decode_xorReg : decodeWord 0b1000001001010011#16 = .xorReg 2 5 ∧ encode (.xorReg 2 5) = 0b1000001001010011#16 := by decide
theorem test_decode_addReg : decodeWord 0b1000001001010100#16 = .addReg 2 5 ∧ encode (.addReg 2 5) = 0b1000001001010100#16 := by decide
theorem test_decode_subReg : decodeWord 0b1000001001010101#16 = .subReg 2 5 ∧ encode (.subReg 2 5) = 0b1000001001010101#16 := by decide
theorem test_decode_shr : decodeWord 0b1000001001010110#16 = .shr 2 5 ∧ encode (.shr 2 5) = 0b1000001001010110#16 := by decide
theorem test_decode_subnReg : decodeWord 0b1000001001010111#16 = .subnReg 2 5 ∧ encode (.subnReg 2 5) = 0b1000001001010111#16 := by decide
theorem test_decode_shl : decodeWord 0b1000001001011110#16 = .shl 2 5 ∧ encode (.shl 2 5) = 0b1000001001011110#16 := by decide
theorem test_decode_sneReg : decodeWord 0b1001101101001101#16 = .sneReg 0xB 4 0xD ∧ encode (.sneReg 0xB 4 0xD) = 0b1001101101001101#16 := by decide
theorem test_decode_ldI : decodeWord 0b1010001101010111#16 = .ldI 0x357 ∧ encode (.ldI 0x357) = 0b1010001101010111#16 := by decide
theorem test_decode_jpV0 : decodeWord 0b1011100000000001#16 = .jpV0 0x801 ∧ encode (.jpV0 0x801) = 0b1011100000000001#16 := by decide
theorem test_decode_rnd : decodeWord 0b1100011011110000#16 = .rnd 6 0xF0 ∧ encode (.rnd 6 0xF0) = 0b1100011011110000#16 := by decide
theorem test_decode_drw : decodeWord 0b1101000100101110#16 = .drw 1 2 0xE ∧ encode (.drw 1 2 0xE) = 0b1101000100101110#16 := by decide
theorem test_decode_skp : decodeWord 0b1110011110011110#16 = .skp 7 ∧ encode (.skp 7) = 0b1110011110011110#16 := by decide
theorem test_decode_sknp : decodeWord 0b1110011110100001#16 = .sknp 7 ∧ encode (.sknp 7) = 0b1110011110100001#16 := by decide
theorem test_decode_ldDT : decodeWord 0b1111011000000111#16 = .ldDT 6 ∧ encode (.ldDT 6) = 0b1111011000000111#16 := by decide
theorem test_decode_ldKey : decodeWord 0b1111011000001010#16 = .ldKey 6 ∧ encode (.ldKey 6) = 0b1111011000001010#16 := by decide
theorem test_decode_setDT : decodeWord 0b1111011000010101#16 = .setDT 6 ∧ encode (.setDT 6) = 0b1111011000010101#16 := by decide
theorem test_decode_setST : decodeWord 0b1111011000011000#16 = .setST 6 ∧ encode (.setST 6) = 0b1111011000011000#16 := by decide
theorem test_decode_addI : decodeWord 0b1111011000011110#16 = .addI 6 ∧ encode (.addI 6) = 0b1111011000011110#16 := by decide
theorem test_decode_ldF : decodeWord 0b1111011000101001#16 = .ldF 6 ∧ encode (.ldF 6) = 0b1111011000101001#16 := by decide
theorem test_decode_ldB : decodeWord 0b1111011000110011#16 = .ldB 6 ∧ encode (.ldB 6) = 0b1111011000110011#16 := by decide
theorem test_decode_store : decodeWord 0b1111011001010101#16 = .store 6 ∧ encode (.store 6) = 0b1111011001010101#16 := by decide
theorem test_decode_load : decodeWord 0b1111011001100101#16 = .load 6 ∧ encode (.load 6) = 0b1111011001100101#16 := by decide
theorem test_decode_unrec0 : decodeWord 0b0000000100100011#16 = .unrec0 0x123 ∧ encode (.unrec0 0x123) = 0b0000000100100011#16 := by decide
theorem test_decode_unrec8 : decodeWord 0b1000000100101000#16 = .unrec8 1 2 8 ∧ encode (.unrec8 1 2 8) = 0b1000000100101000#16 := by decide
theorem test_decode_unrecE : decodeWord 0b1110000111111111#16 = .unrecE 1 0xFF ∧ encode (.unrecE 1 0xFF) = 0b1110000111111111#16 := by decide
theorem test_decode_unrecF : decodeWord 0b1111000111111111#16 = .unrecF 1 0xFF ∧ encode (.unrecF 1 0xFF) = 0b1111000111111111#16 := by decide

/-- The byte order: the first byte gives bits 15..8 (spec/20_memory.md R53). -/
theorem test_decode_bytes : decode [0x2A, 0xBC, 0x01] = .ok (.call 0xABC, [0x01]) := by rfl
theorem test_decode_half : decode [0x2A] = .error .halfWord := by rfl
theorem test_tableWord : decodeTableWord 16 0xD12E = some (.drw 1 2 0xE) := by decide
theorem test_fetchWord : gives (State.reset.withFetchWord 16 0xA357) (fun t => t.i == 0x357 && t.pc == 0x202) = true := by
  decide
theorem test_fetchWord_moves :
    ({ State.reset with pc := 0xFFF }.withFetchWord 16 0xA357).pc = 0x200 := by decide
/-- Nothing placed: the first word after reset is 0x0000, UNRECOGNIZED (log entry 11). -/
theorem test_reset_step : gives State.reset (fun t => t.pc == 0x202 && t.out.illegalEvent) = true := by decide

/-! ## Memory -/

theorem test_reset_wf : State.reset.mem.wf := ⟨by simp [State.reset, State.resetWith], by simp [State.reset, State.resetWith]⟩
/-- E1: the default glyphs at 0..79, zero after them. -/
theorem test_reset_glyphs : [0, 1, 2, 3, 4, 75, 76, 77, 78, 79, 80, 4095].map State.reset.mem.read
    = [0xF0, 0x90, 0x90, 0x90, 0xF0, 0xF0, 0x80, 0xF0, 0x80, 0x80, 0, 0] := by decide
/-- A write of what an unlisted address reads as removes the entry. -/
theorem test_write_canonical :
    ((((State.reset.mem.write 0x300 7).write 0x2FF 9).write 0x300 0).cells) = [(0x2FF, 9)] := by decide

/-! ## One step of every instruction, from the vectors -/

/-- V3. -/
theorem test_unrec0 : gives (start 0x0123 [])
    (fun t => t.pc == 0x202 && t.out.illegalEvent && t.mode == .run) = true := by decide
/-- V7. -/
theorem test_unrec0_ticks : gives ({ start 0x0000 [] with dt := 3, st := 1 })
    (fun t => t.dt == 2 && t.st == 0 && t.out.soundEvent && t.out.illegalEvent) = true := by decide
/-- V4. -/
theorem test_unrec8 : gives (start 0x8128 [(1, 5), (2, 6)])
    (fun t => t.pc == 0x202 && t.out.illegalEvent && t.reg 1 == 5) = true := by decide
/-- V5. -/
theorem test_unrecE : gives (start 0xE1FF [])
    (fun t => t.pc == 0x202 && t.out.illegalEvent) = true := by decide
/-- V6. -/
theorem test_unrecF : gives (start 0xF1FF [])
    (fun t => t.pc == 0x202 && t.out.illegalEvent) = true := by decide
/-- V1. -/
theorem test_fetch_last : gives (startAt 0xFFE 0x1234 [])
    (fun t => t.pc == 0x234 && t.out.diagPc == 0xFFE && t.out.diagWord == 0x1234) = true := by decide
/-- V2. -/
theorem test_fetch_past : gives ({ State.reset with pc := 0xFFF })
    (fun t => inFault .fetchOutOfBounds 0xFFF t && t.out == Outputs.cleared) = true := by decide
/-- V9. -/
theorem test_wait_step : gives ({ start 0x6005 [] with mode := .waitKey, dt := 5 })
    (fun t => t.dt == 5 && t.pc == 0x200 && t.reg 0 == 0 && t.out == Outputs.cleared) = true := by decide
/-- V10. -/
theorem test_ret_empty : gives (start 0x00EE [])
    (fun t => inFault .stackUnderflow 0x200 t && t.out.diagWord == 0x00EE) = true := by decide
/-- V11. -/
theorem test_ret : gives ({ startAt 0x212 0x00EE [] with sp := 1, stack := State.reset.stack.set 0 0x204 })
    (fun t => t.sp == 0 && t.pc == 0x206 && t.stack[0] == 0x204) = true := by decide
/-- V12. -/
theorem test_jp : gives (startAt 0x20A 0x1204 [])
    (fun t => t.pc == 0x204) = true := by decide
/-- V17. -/
theorem test_jp_odd : gives (poke (start 0x1201 []) 0x202 [0x23])
    (fun t => gives t (fun u => u.pc == 0x203 && u.out.illegalEvent && u.out.diagPc == 0x201 && u.out.diagWord == 0x0123)) = true := by decide
/-- V13. -/
theorem test_call : gives (startAt 0x204 0x2210 [])
    (fun t => t.stack[0] == 0x204 && t.sp == 1 && t.pc == 0x210) = true := by decide
/-- V14. -/
theorem test_call_full : gives ({ start 0x2300 [] with sp := 16 })
    (fun t => inFault .stackOverflow 0x200 t && t.sp == 16) = true := by decide
/-- V15. -/
theorem test_jpV0 : gives (start 0xB300 [(0, 0x04)])
    (fun t => t.pc == 0x304) = true := by decide
/-- V16. -/
theorem test_jpV0_top : gives (start 0xBFFF [(0, 0xFF)])
    (fun t => t.pc == 0x10FE && gives t (fun u => inFault .fetchOutOfBounds 0x10FE u)) = true := by decide
/-- V18. -/
theorem test_seImm : gives (startAt 0x208 0x3000 [])
    (fun t => t.pc == 0x20C) = true := by decide
/-- V32. -/
theorem test_seImm_top : gives (startAt 0xFFE 0x3000 [])
    (fun t => t.pc == 0x1002 && gives t (fun u => inFault .fetchOutOfBounds 0x1002 u)) = true := by decide
/-- V20. -/
theorem test_sneImm : gives (startAt 0x300 0x4311 [(3, 0x10)])
    (fun t => t.pc == 0x304) = true := by decide
/-- V21. -/
theorem test_sneImm_equal : gives (startAt 0x300 0x4310 [(3, 0x10)])
    (fun t => t.pc == 0x302) = true := by decide
/-- V24. -/
theorem test_seReg : gives (start 0x5127 [(1, 7), (2, 7)])
    (fun t => t.pc == 0x204 && !t.out.illegalEvent) = true := by decide
/-- V23. -/
theorem test_seReg_differ : gives (start 0x5125 [(1, 7), (2, 8)])
    (fun t => t.pc == 0x202) = true := by decide
/-- V25. -/
theorem test_sneReg : gives (start 0x9120 [(1, 7), (2, 8)])
    (fun t => t.pc == 0x204) = true := by decide
/-- V26. -/
theorem test_sneReg_same : gives (start 0x9110 [(1, 7)])
    (fun t => t.pc == 0x202) = true := by decide
/-- V27. -/
theorem test_skp : gives ((startAt 0x202 0xE59E [(5, 7)]).setKey 7 true)
    (fun t => t.pc == 0x206) = true := by decide
/-- V31. -/
theorem test_skp_fault : gives (startAt 0x202 0xE59E [(5, 16)])
    (fun t => inFault .keyIndexOutOfRange 0x202 t) = true := by decide
/-- V29. -/
theorem test_sknp : gives (startAt 0x202 0xE5A1 [(5, 7)])
    (fun t => t.pc == 0x206) = true := by decide
/-- V30. -/
theorem test_sknp_down : gives ((startAt 0x202 0xE5A1 [(5, 7)]).setKey 7 true)
    (fun t => t.pc == 0x204) = true := by decide
/-- V33. -/
theorem test_ldImm : gives (start 0x6F05 [(0xF, 1)])
    (fun t => t.reg 0xF == 0x05 && t.pc == 0x202) = true := by decide
/-- V34. -/
theorem test_addImm : gives (start 0x70FF [(0, 1)])
    (fun t => t.reg 0 == 0x00 && t.reg 0xF == 0) = true := by decide
/-- V35. -/
theorem test_addImm_vf : gives (start 0x7F01 [(0xF, 0xFF)])
    (fun t => t.reg 0xF == 0x00) = true := by decide
/-- V36. -/
theorem test_ldReg : gives (start 0x8120 [(2, 0x33)])
    (fun t => t.reg 1 == 0x33 && t.reg 2 == 0x33) = true := by decide
/-- V37. -/
theorem test_orReg : gives (start 0x8121 [(1, 0xF0), (2, 0x0F), (0xF, 1)])
    (fun t => t.reg 1 == 0xFF && t.reg 0xF == 1) = true := by decide
/-- V38. -/
theorem test_andReg : gives (start 0x8122 [(1, 0xF0), (2, 0x3C)])
    (fun t => t.reg 1 == 0x30) = true := by decide
/-- V39. -/
theorem test_xorReg : gives (start 0x8123 [(1, 0xF0), (2, 0x3C)])
    (fun t => t.reg 1 == 0xCC) = true := by decide
/-- E4, as the spec corrects it (C5). -/
theorem test_addReg : gives (start 0x8124 [(1, 100), (2, 200)])
    (fun t => t.reg 1 == 44 && t.reg 0xF == 1) = true := by decide
/-- V42. -/
theorem test_addReg_vf : gives (start 0x8F14 [(0xF, 0xFF), (1, 0x01)])
    (fun t => t.reg 0xF == 1) = true := by decide
/-- V44. -/
theorem test_subReg : gives (start 0x8125 [(1, 9), (2, 9)])
    (fun t => t.reg 1 == 0 && t.reg 0xF == 1) = true := by decide
/-- E5. -/
theorem test_subReg_borrow : gives (start 0x8125 [(1, 50), (2, 100)])
    (fun t => t.reg 1 == 206 && t.reg 0xF == 0) = true := by decide
/-- V46. -/
theorem test_shr : gives (start 0x8106 [(1, 0x05)])
    (fun t => t.reg 1 == 0x02 && t.reg 0xF == 1) = true := by decide
/-- V48. -/
theorem test_shr_vf : gives (start 0x8F06 [(0xF, 0x02)])
    (fun t => t.reg 0xF == 0) = true := by decide
/-- V49. -/
theorem test_subnReg : gives (start 0x8127 [(1, 100), (2, 50)])
    (fun t => t.reg 1 == 206 && t.reg 0xF == 0) = true := by decide
/-- V50. -/
theorem test_subnReg_noBorrow : gives (start 0x8127 [(1, 50), (2, 100)])
    (fun t => t.reg 1 == 50 && t.reg 0xF == 1) = true := by decide
/-- V51. -/
theorem test_shl : gives (start 0x810E [(1, 0x81)])
    (fun t => t.reg 1 == 0x02 && t.reg 0xF == 1) = true := by decide
/-- V53. -/
theorem test_shl_vf : gives (start 0x8F0E [(0xF, 0x40)])
    (fun t => t.reg 0xF == 0) = true := by decide
/-- V54, with the drawn byte free. -/
theorem test_rnd : ∃ t, step (start 0xC30F []) = .next t ∧ t.reg 3 = Config.rnd 0 &&& 0x0F ∧ t.draws = 1 :=
  ⟨_, rfl, rfl, rfl⟩
/-- V55. -/
theorem test_rnd_masked : ∃ t, step (start 0xC300 []) = .next t ∧ t.reg 3 = 0 :=
  ⟨_, rfl, (show Config.rnd 0 &&& 0#8 = 0#8 by simp)⟩
/-- V56. -/
theorem test_ldI : gives (start 0xA300 [])
    (fun t => t.i == 0x300) = true := by decide
/-- V57. -/
theorem test_addI : gives ({ start 0xF21E [(2, 2)] with i := 0x0FFF })
    (fun t => t.i == 0x1001 && t.reg 0xF == 0) = true := by decide
/-- V58. -/
theorem test_addI_wraps : gives ({ start 0xF21E [(2, 1)] with i := 0xFFFF })
    (fun t => t.i == 0 && t.reg 0xF == 0) = true := by decide
/-- V61. -/
theorem test_ldF : gives (start 0xF029 [(0, 16)])
    (fun t => t.i == 80) = true := by decide
/-- V62. -/
theorem test_ldF_top : gives (start 0xF029 [(0, 0xFF)])
    (fun t => t.i == 1275) = true := by decide
/-- V65. -/
theorem test_ldB : gives ({ start 0xF033 [(0, 123)] with i := 4093 })
    (fun t => [4093, 4094, 4095].map t.mem.read == [1, 2, 3]) = true := by decide
/-- V67. -/
theorem test_ldB_glyphs : gives ({ start 0xF033 [(0, 123)] with i := 79 })
    (fun t => inFault .glyphRegionWrite 0x200 t && t.mem.read 79 == 0x80 && t.mem.read 80 == 0) = true := by decide
/-- V69. -/
theorem test_store : gives ({ start 0xF255 [(0, 1), (1, 2), (2, 3), (3, 4)] with i := 0x400 })
    (fun t => [0x3FF, 0x400, 0x401, 0x402, 0x403].map t.mem.read == [0, 1, 2, 3, 0] && t.i == 0x400) = true := by decide
/-- V71. -/
theorem test_store_fault : gives ({ start 0xFF55 [(0, 9)] with i := 4081 })
    (fun t => inFault .memoryOutOfBounds 0x200 t && t.mem.read 4081 == 0) = true := by decide
/-- V74. -/
theorem test_load : gives (start 0xF465 [(5, 9)])
    (fun t => [0, 1, 2, 3, 4, 5].map t.reg == [0xF0, 0x90, 0x90, 0x90, 0xF0, 9] && t.i == 0) = true := by decide
/-- V75. -/
theorem test_load_fault : gives ({ start 0xF165 [(0, 9)] with i := 4095 })
    (fun t => inFault .memoryOutOfBounds 0x200 t && t.reg 0 == 9) = true := by decide
/-- V77. -/
theorem test_cls : gives (light (start 0x00E0 [(0xF, 3)]) 5 5)
    (fun t => !framePixel t.fb 5 5 && t.dirty && t.reg 0xF == 3) = true := by decide
/-- V79. -/
theorem test_drw_clips : gives ({ poke (light (light (start 0xD011 [(0, 62), (1, 1)]) 63 1) 10 10) 0x300 [0xC3] with i := 0x300 })
    (fun t => framePixel t.fb 62 1 && !framePixel t.fb 63 1 && framePixel t.fb 10 10 && !framePixel t.fb 4 1 && t.reg 0xF == 1 && t.dirty) = true := by decide
/-- V85. -/
theorem test_drw_bits : gives ({ poke (start 0xD011 [(0xF, 1)]) 4095 [0x01] with i := 4095 })
    (fun t => framePixel t.fb 7 0 && !framePixel t.fb 0 0 && t.reg 0xF == 0) = true := by decide
/-- V88. -/
theorem test_ldDT : gives ({ start 0xF107 [] with dt := 2 })
    (fun t => t.reg 1 == 2 && t.dt == 1) = true := by decide
/-- V96. -/
theorem test_ldKey : gives ({ start 0xF50A [] with dt := 5, st := 5 })
    (fun t => t.mode == .waitKey && t.waitX == 5 && t.dt == 5 && t.st == 5 && t.pc == 0x202) = true := by decide
/-- V90. -/
theorem test_setDT : gives (start 0xF015 [(0, 3)])
    (fun t => t.dt == 2) = true := by decide
/-- V92. -/
theorem test_setDT_zero : gives ({ start 0xF015 [] with dt := 9 })
    (fun t => t.dt == 0) = true := by decide
/-- V93. -/
theorem test_setST : gives (start 0xF018 [(0, 1)])
    (fun t => t.st == 0 && t.out.soundEvent) = true := by decide
/-- V95. -/
theorem test_setST_zero : gives ({ start 0xF018 [] with st := 5 })
    (fun t => t.st == 0 && !t.out.soundEvent) = true := by decide

/-! ## The host's operations -/

/-- V100: a press ends the wait even for a key already down. -/
theorem test_keyPress : (({ State.reset with mode := .waitKey, waitX := 5 }.setKey 7 true).keyPress 7).reg 5 = 7 ∧
    (({ State.reset with mode := .waitKey, waitX := 5 }.setKey 7 true).keyPress 7).mode = .run := by decide
/-- V103. -/
theorem test_keyPress_fault : ({ State.reset with mode := .fault, faultCode := .stackOverflow }.keyPress 3).mode = .fault ∧
    ({ State.reset with mode := .fault, faultCode := .stackOverflow }.keyPress 3).keyDown 3 = true := by decide
/-- V99. -/
theorem test_keyRelease : (({ State.reset with mode := .waitKey, waitX := 5 }.setKey 7 true).keyRelease 7).mode = .waitKey ∧
    (({ State.reset with mode := .waitKey, waitX := 5 }.setKey 7 true).keyRelease 7).keyDown 7 = false := by decide
/-- E2. -/
theorem test_hostLoad : (match hostOp (.load [0x12, 0x34]) State.reset with
    | .done t => [0x1FF, 0x200, 0x201, 0x202].map t.mem.read == [0, 0x12, 0x34, 0] && !t.loadOpen
    | .loadFailure _ => false
    | .fault _ => false
    | .refused _ => false) = true := by decide
/-- V109. -/
theorem test_load_after_step : gives State.reset (fun t => match hostOp (.load [0x12]) t with
    | .refused r => r == .loadNotAdmitted
    | .done _ => false
    | .loadFailure _ => false
    | .fault _ => false) = true := by decide
/-- V104: the image is gone after RESET. -/
theorem test_reset_clears : (poke { State.reset with mode := .fault, faultCode := .stackOverflow } 0x200 [0x12]).resetAgain
    = State.reset := by decide
/-- V105. -/
theorem test_dirtyClear : { State.reset with dirty := true }.dirtyClear = State.reset := by decide


/-- READ of elements R36 and R195 add to R41's list; a stack entry is none of them (R28, C1). -/
theorem test_read :
    hostRead .waitX { State.reset with waitX := 5 } = .ok (.nibble 5) ∧
    hostRead (.stackEntry 0) { State.reset with sp := 1, stack := State.reset.stack.set 0 0x204 } = .error (.stackEntryUnobservable 0) ∧
    hostRead (.reg 0xF) (State.reset.setReg 0xF 9) = .ok (.byte 9) ∧
    hostRead (.key 7) (State.reset.setKey 7 true) = .ok (.bit true) ∧
    hostRead .pc State.reset = .ok (.word 0x200) :=
  ⟨rfl, rfl, rfl, rfl, rfl⟩

/-! ## Witnesses: for every statement with hypotheses a state and operands that meet them all -/

/-- A STEP of `start w regs` fetches the word's instruction: what the witnesses below share. -/
theorem fetches_of {s : State} {i : Instr} (h : (s.mode == .run && decide (s.pc.toNat ≤ 4094) &&
    decodeWord (s.mem.read s.pc.toNat ++ s.mem.read (s.pc.toNat + 1)) == i) = true) : Fetches s i := by
  simp only [Bool.and_eq_true, beq_iff_eq, decide_eq_true_eq] at h
  exact ⟨h.1.1, h.1.2, h.2⟩

theorem witness_DecodeOfEncodeIsTheInstruction :
    (Instr.unrec8 1 2 8).WellFormed ∧ (Instr.unrecF 0xF 0xFF).WellFormed ∧ (Instr.drw 0xF 0 0xF).WellFormed := by
  decide

theorem witness_PlainGroupsAndGroup8Decode :
    0x8#4 ∈ [0x8#4, 0x9#4, 0xA#4, 0xB#4, 0xC#4, 0xD#4, 0xF#4] ∧
    0xF#4 ∈ [0x8#4, 0x9#4, 0xA#4, 0xB#4, 0xC#4, 0xD#4, 0xF#4] := by decide

theorem witness_OtherGroupsDispatch :
    (0x000#12 ≠ 0x0E0#12 ∧ 0x000#12 ≠ 0x0EE#12) ∧ (0xFF#8 ≠ 0x9E#8 ∧ 0xFF#8 ≠ 0xA1#8) ∧
    0x64#8 ∉ [0x07#8, 0x0A#8, 0x15#8, 0x18#8, 0x1E#8, 0x29#8, 0x33#8, 0x55#8, 0x65#8] := by decide

/-- The step statements: an instruction fetched at the last fetchable address. -/
theorem witness_StepRunsTheDecodedInstruction : Fetches (startAt 0xFFE 0x1234 []) (.jp 0x234) :=
  fetches_of (by decide)

/-- A body that stays in RUN with ST at 1, one that faults, one that waits. -/
theorem witness_TickCountsCompletedCycles :
    (∃ s t : State, s.mode = .run ∧ s.pc.toNat ≤ 4094 ∧
      exec (decodeWord s.fetchedWord) s.beginStep.afterFetch = .next t ∧ t.mode = .run ∧ t.st = 1) ∧
    (∃ s t : State, s.mode = .run ∧ s.pc.toNat ≤ 4094 ∧
      exec (decodeWord s.fetchedWord) s.beginStep.afterFetch = .next t ∧ t.mode = .fault) ∧
    (∃ s t : State, s.mode = .run ∧ s.pc.toNat ≤ 4094 ∧
      exec (decodeWord s.fetchedWord) s.beginStep.afterFetch = .next t ∧ t.mode = .waitKey) :=
  ⟨⟨{ start 0x6005 [] with st := 1 }, _, rfl, by decide, rfl, rfl, rfl⟩,
   ⟨start 0x00EE [], _, rfl, by decide, rfl, rfl⟩, ⟨start 0xF50A [], _, rfl, by decide, rfl, rfl⟩⟩

theorem witness_FetchPastTheEndFaults :
    { State.reset with pc := 0xFFF }.mode = .run ∧ 4094 < { State.reset with pc := 0xFFF }.pc.toNat := by decide

theorem witness_HaltedStepsOnlyClearOutputs :
    { State.reset with mode := .waitKey }.mode = .waitKey ∧ { State.reset with mode := .fault }.mode = .fault := by
  decide

/-- A fault of the body, and the fetch fault. -/
theorem witness_FaultsArePrecise :
    (∃ t, step (start 0x00EE []) = .next t ∧ t.mode = .fault) ∧
    (∃ t, step { State.reset with pc := 0xFFF } = .next t ∧ t.mode = .fault) :=
  ⟨⟨_, rfl, rfl⟩, ⟨_, rfl, rfl⟩⟩

/-- Every code of the table, and none, is some state's. -/
theorem witness_FaultsExactlyAsTabled :
    stepFault (start 0x1204 []) = .none ∧ stepFault { State.reset with pc := 0xFFF } = .fetchOutOfBounds ∧
    stepFault { start 0x2300 [] with sp := 16 } = .stackOverflow ∧ stepFault (start 0x00EE []) = .stackUnderflow ∧
    stepFault { start 0xF165 [] with i := 4095 } = .memoryOutOfBounds ∧
    stepFault { start 0xF055 [] with i := 79 } = .glyphRegionWrite ∧
    stepFault (start 0xE59E [(5, 16)]) = .keyIndexOutOfRange := by decide

theorem witness_UnrecognizedWordIsANoOp :
    isUnrecognized (.unrec8 1 2 8) = true ∧ Fetches (start 0x8128 []) (.unrec8 1 2 8) ∧
    isUnrecognized (.unrec0 0) = true ∧ Fetches State.reset (.unrec0 0) :=
  ⟨rfl, fetches_of (by decide), rfl, fetches_of (by decide)⟩

theorem witness_DiagnosticsOfEveryFetchedCycle :
    (startAt 0xFFE 0x1234 []).mode = .run ∧ (startAt 0xFFE 0x1234 []).pc.toNat ≤ 4094 := by decide

theorem witness_IllegalEventOnlyForUnrecognizedWords :
    (∃ t, step (start 0x0123 []) = .next t ∧ t.out.illegalEvent = true) ∧
    (∃ t, step (start 0x6005 []) = .next t ∧ t.out.illegalEvent = false) :=
  ⟨⟨_, rfl, rfl⟩, ⟨_, rfl, rfl⟩⟩

theorem witness_JumpSetsThePc : Fetches (start 0x1FFF []) (.jp 0xFFF) ∧ 4094 < (0xFFF#12).toNat :=
  ⟨fetches_of (by decide), by decide⟩

/-- One place left on the stack, at the highest address a body can start from. -/
theorem witness_CallPushesItsOwnAddress :
    AfterAdvance { startAt 0xFFE 0x2300 [] with pc := 4096, sp := 15 } ∧
    { startAt 0xFFE 0x2300 [] with pc := 4096, sp := 15 }.sp.val < 16 := ⟨⟨by decide, by decide⟩, by decide⟩

theorem witness_ReturnPopsAndAddsTwo :
    ∃ (s : State) (h : 0 < s.sp.val), (s.stack[s.sp.val - 1]'(by omega)).toNat ≤ 4094 :=
  ⟨{ State.reset with sp := 16, stack := Vector.replicate 16 4094 }, by decide, by decide⟩

theorem witness_StackAndKeyLimitsFault :
    (AfterAdvance { State.reset with sp := 16 } ∧ { State.reset with sp := 16 }.sp.val = 16) ∧
    (AfterAdvance { State.reset with pc := 2 } ∧ { State.reset with pc := 2 }.sp.val = 0) ∧
    (AfterAdvance (State.reset.setReg 0xF 16) ∧ 15 < ((State.reset.setReg 0xF 16).reg 0xF).toNat) :=
  ⟨⟨⟨by decide, by decide⟩, by decide⟩, ⟨⟨by decide, by decide⟩, by decide⟩, ⟨by decide, by decide⟩, by decide⟩

/-- A CALL of 0xFFE, where a RET stands. -/
theorem witness_CallThenReturnResumesAfterTheCall :
    Fetches (poke (start 0x2FFE []) 0xFFE [0x00, 0xEE]) (.call 0xFFE) ∧
    (poke (start 0x2FFE []) 0xFFE [0x00, 0xEE]).sp.val < 16 ∧ (0xFFE#12).toNat ≤ 4094 ∧
    decodeWord ((poke (start 0x2FFE []) 0xFFE [0x00, 0xEE]).mem.read (0xFFE#12).toNat ++
      (poke (start 0x2FFE []) 0xFFE [0x00, 0xEE]).mem.read ((0xFFE#12).toNat + 1)) = .ret :=
  ⟨fetches_of (by decide), by decide, by decide, by decide⟩

theorem witness_SelfJumpOnlyTicks : Stopped (startAt 0x20E 0x120E []) :=
  ⟨by decide, by decide, 0x20E, by decide, by decide⟩

/-- A skip taken and one not, at the highest and the lowest advanced pc. -/
theorem witness_SkipOnImmediate :
    AfterAdvance { State.reset with pc := 4096 } ∧ { State.reset with pc := 4096 }.reg 0 = 0 ∧
    AfterAdvance { State.reset with pc := 2 } ∧ { State.reset with pc := 2 }.reg 0 ≠ 1 :=
  ⟨⟨by decide, by decide⟩, by decide, ⟨by decide, by decide⟩, by decide⟩

theorem witness_SkipOnTwoRegisters :
    AfterAdvance (State.reset.setReg 1 7) ∧ (State.reset.setReg 1 7).reg 1 ≠ (State.reset.setReg 1 7).reg 2 ∧
    (State.reset.setReg 1 7).reg 3 = (State.reset.setReg 1 7).reg 2 :=
  ⟨⟨by decide, by decide⟩, by decide, by decide⟩

theorem witness_SkipOnKeyLevel :
    AfterAdvance ((State.reset.setReg 5 15).setKey 15 true) ∧
    (((State.reset.setReg 5 15).setKey 15 true).reg 5).toNat = (15#4).toNat ∧
    ((State.reset.setReg 5 15).setKey 15 true).keyDown 15 = true ∧
    ((State.reset.setReg 5 15).setKey 15 true).keyDown 0 = false :=
  ⟨⟨by decide, by decide⟩, by decide, by decide, by decide⟩

theorem witness_LogicOfTwoRegisters : (0x2#4 ≠ 0x1#4) ∧ 7 < 8 := by decide

theorem witness_RegisterWritersAsTabled :
    (∃ t, exec (.load 3) (inBody (start 0xF365 [])) = .next t) ∧ writesReg (.load 3) 4 = false ∧
    writesReg (.load 3) 3 = true ∧ writesReg (.addReg 1 2) 0xF = true ∧ writesReg (.addImm 1 2) 0xF = false :=
  ⟨⟨_, rfl⟩, by decide⟩

/-- Both ends of the range that may be written. -/
theorem witness_StoreDecimalDigits :
    State.reset.mem.wf ∧ 80 ≤ { State.reset with i := 80 }.i.toNat ∧ { State.reset with i := 80 }.i.toNat + 2 ≤ 4095 ∧
    80 ≤ { State.reset with i := 4093 }.i.toNat ∧ { State.reset with i := 4093 }.i.toNat + 2 ≤ 4095 :=
  ⟨test_reset_wf, by decide⟩

theorem witness_StoreRegisters :
    State.reset.mem.wf ∧ 80 ≤ { State.reset with i := 4080 }.i.toNat ∧
    { State.reset with i := 4080 }.i.toNat + (0xF#4).toNat ≤ 4095 ∧
    80 ≤ { State.reset with i := 80 }.i.toNat ∧ { State.reset with i := 80 }.i.toNat + (0x0#4).toNat ≤ 4095 ∧
    (0x0#4).toNat ≤ (0xF#4).toNat ∧ (79 < { State.reset with i := 80 }.i.toNat) :=
  ⟨test_reset_wf, by decide⟩

theorem witness_LoadRegisters :
    { State.reset with i := 4080 }.i.toNat + (0xF#4).toNat ≤ 4095 ∧
    { State.reset with i := 0 }.i.toNat + (0xF#4).toNat ≤ 4095 := by decide

/-- Each fault at the first value of its range. -/
theorem witness_MemoryRangeFaults :
    AfterAdvance { State.reset with i := 4095 } ∧
    (0 < (2#4).toNat ∧ 4096 < { State.reset with i := 4095 }.i.toNat + (2#4).toNat) ∧
    4095 < { State.reset with i := 4094 }.i.toNat + 2 ∧
    4095 < { State.reset with i := 4095 }.i.toNat + (1#4).toNat ∧
    4095 < { State.reset with i := 4081 }.i.toNat + (15#4).toNat ∧ { State.reset with i := 79 }.i.toNat ≤ 79 :=
  ⟨⟨by decide, by decide⟩, by decide⟩

/-- The store of x[0]..x[2] at 0x400, then other registers and the same memory and I. -/
theorem witness_StoreThenLoadRestoresRegisters :
    ∃ s t t' : State, s.mem.wf ∧ 80 ≤ s.i.toNat ∧ s.i.toNat + (2#4).toNat ≤ 4095 ∧
      exec (.store 2) s = .next t ∧ t'.mem = t.mem ∧ t'.i = t.i ∧ t'.reg 0 ≠ s.reg 0 :=
  ⟨{ State.reset with i := 0x400 }, { State.reset with i := 0x400 }, { State.reset with i := 0x400 }.setReg 0 9,
    test_reset_wf, by decide, by decide, by rfl, rfl, rfl, by decide⟩

theorem witness_GlyphRegionIsConstant :
    (∃ t, hostOp .step State.reset = .done t) ∧ hostOp (.load (List.replicate 3585 0)) State.reset = .loadFailure State.reset ∧
    HostOp.step ≠ HostOp.reset :=
  ⟨⟨_, rfl⟩, by
    rw [hostOp, hostLoad, if_pos (by rfl), if_pos (by rw [List.length_replicate]; decide)], by decide⟩

/-- A STEP that changes a byte: the hundreds digit of 254 at 80. -/
theorem witness_OnlyStoresChangeMemory :
    ∃ t, step { start 0xF033 [(0, 254)] with i := 80 } = .next t ∧
      t.mem.read 80 ≠ { start 0xF033 [(0, 254)] with i := 80 }.mem.read 80 :=
  ⟨_, rfl, by decide⟩

theorem placed_wf (w : Word) (regs : List (Nibble × Byte)) : (start w regs).mem.wf := by
  have h : ∀ (l : List (Nibble × Byte)) (s : State), s.mem.wf →
      (l.foldl (fun s p => s.setReg p.1 p.2) s).mem.wf := by
    intro l
    induction l with
    | nil => exact fun s hs => hs
    | cons p l ih => exact fun s hs => ih _ hs
  exact h regs _ (Memory.wf_write (Memory.wf_write test_reset_wf _ _) _ _)

/-- P8: the store of x[0] : x[1] over the next word. -/
theorem witness_WrittenCodeIsFetchedNext :
    Fetches { start 0xF155 [(0, 0x12), (1, 0x08)] with i := 0x202 } (.store 1) ∧
    { start 0xF155 [(0, 0x12), (1, 0x08)] with i := 0x202 }.mem.wf ∧ 1 ≤ (1#4).toNat ∧
    { start 0xF155 [(0, 0x12), (1, 0x08)] with i := 0x202 }.i.toNat =
      { start 0xF155 [(0, 0x12), (1, 0x08)] with i := 0x202 }.pc.toNat + 2 ∧
    80 ≤ { start 0xF155 [(0, 0x12), (1, 0x08)] with i := 0x202 }.i.toNat ∧
    { start 0xF155 [(0, 0x12), (1, 0x08)] with i := 0x202 }.i.toNat + (1#4).toNat ≤ 4095 :=
  ⟨fetches_of (by decide), placed_wf _ _, by decide, by decide, by decide, by decide⟩

/-- The last row that exists, and N = 0 with an I beyond memory. -/
theorem witness_DrawTogglesTheSpritesCells :
    { State.reset with i := 4095 }.i.toNat + (1#4).toNat ≤ 4096 ∧
    { State.reset with i := 0xFFFF }.i.toNat > 4096 ∧ 0#4 = 0 ∧ (63 < 64 ∧ 31 < 32) ∧ (0x1#4 ≠ 0xF#4) := by decide

theorem witness_DrawingTwiceRestoresTheFrame :
    ∃ s t : State, s.i.toNat + (5#4).toNat ≤ 4096 ∧ exec (.drw 0 1 5) s = .next t ∧ t.reg 0 = s.reg 0 ∧
      t.reg 1 = s.reg 1 ∧ framePixel t.fb 3 1 = true :=
  ⟨State.reset, _, by decide, rfl, by decide, by decide, by decide⟩

/-- A STEP that changes the screen, and one of the two instructions that does not fault. -/
theorem witness_OnlyClsAndDrwTouchTheScreen :
    (∃ t, step (start 0xD015 []) = .next t ∧ t.dirty ≠ (start 0xD015 []).dirty ∧ t.mode ≠ .fault) ∧
    Fetches (start 0xD015 []) (.drw 0 1 5) ∧ Fetches (start 0x00E0 []) .cls :=
  ⟨⟨_, rfl, by decide, by decide⟩, fetches_of (by decide), fetches_of (by decide)⟩

theorem witness_ReadDelayTimer : Fetches { start 0xF107 [] with dt := 1 } (.ldDT 1) := fetches_of (by decide)

theorem witness_KeyWaitIsEntered : Fetches (start 0xF50A []) (.ldKey 5) := fetches_of (by decide)

theorem witness_SetTimers :
    Fetches (start 0xF015 [(0, 1)]) (.setDT 0) ∧ Fetches (start 0xF018 [(0, 1)]) (.setST 0) :=
  ⟨fetches_of (by decide), fetches_of (by decide)⟩

theorem witness_KeyEvents :
    { State.reset with mode := .waitKey }.mode = .waitKey ∧ State.reset.mode ≠ .waitKey := by decide

theorem witness_ResetLeavesTheTabledState :
    ∃ (g : Vector Byte 80) (t : State), t = State.resetWith g ∧ 79 < 80 ∧ 80 ≤ 4095 :=
  ⟨defaultGlyphs, State.reset, rfl, by decide⟩

/-- The longest image that fits and the shortest that does not. -/
theorem witness_LoadCopiesTheImage :
    State.reset.mem.wf ∧ State.reset.loadOpen = true ∧
    512 + (List.replicate 3584 (0xAB : Byte)).length ≤ 4096 ∧ 4096 < 512 + (List.replicate 3585 (0xAB : Byte)).length :=
  ⟨test_reset_wf, rfl, by rw [List.length_replicate], by rw [List.length_replicate]; decide⟩

theorem witness_LoadIsRefusedElsewhere :
    { State.reset with loadOpen := false }.loadOpen = false ∧ (∃ t, step State.reset = .next t) ∧
    (∃ t, hostOp (.load [0x12]) State.reset = .done t) ∧ (∃ t, hostOp .reset State.reset = .done t) ∧
    HostOp.dirtyClear ≠ HostOp.reset ∧ (∃ t, hostOp .dirtyClear { State.reset with loadOpen := false } = .done t) :=
  ⟨rfl, ⟨_, rfl⟩, ⟨_, rfl⟩, ⟨_, rfl⟩, by decide, ⟨_, rfl⟩⟩

theorem witness_ReadReturnsTheValue :
    (4095 ≤ 4095 ∧ 4095 < 4096) ∧ State.reset.faultCode = .none ∧
    { State.reset with faultCode := .fetchOutOfBounds }.faultCode = .fetchOutOfBounds ∧
    { State.reset with faultCode := .stackOverflow }.faultCode = .stackOverflow ∧
    { State.reset with faultCode := .stackUnderflow }.faultCode = .stackUnderflow ∧
    { State.reset with faultCode := .memoryOutOfBounds }.faultCode = .memoryOutOfBounds ∧
    { State.reset with faultCode := .glyphRegionWrite }.faultCode = .glyphRegionWrite ∧
    { State.reset with faultCode := .keyIndexOutOfRange }.faultCode = .keyIndexOutOfRange := by decide

/-- A state inside a subroutine meets the invariant, and its STEP answers a next state. -/
theorem witness_InvariantKeptByStep :
    Inv { start 0x00EE [] with sp := 1, stack := Vector.replicate 16 4094 } ∧
    ∃ t, step { start 0x00EE [] with sp := 1, stack := Vector.replicate 16 4094 } = .next t :=
  ⟨{ memWf := placed_wf _ _
     glyphsIntact := by decide
     pcBound := by decide
     returnsBound := by decide
     faultNamed := by decide
     faultPcIsPc := by decide
     loadOnlyInRun := by decide }, ⟨_, rfl⟩⟩

/-- The same state, with an operation that is done and a LOAD that fails. -/
theorem witness_InvariantKeptByHostOperations :
    Inv { start 0x00EE [] with sp := 1, stack := Vector.replicate 16 4094 } ∧
    (∃ t, hostOp (.keyPress 3) { start 0x00EE [] with sp := 1, stack := Vector.replicate 16 4094 } = .done t) ∧
    hostOp (.load (List.replicate 3585 0)) State.reset = .loadFailure State.reset :=
  ⟨witness_InvariantKeptByStep.1, ⟨_, rfl⟩, witness_GlyphRegionIsConstant.2.1⟩

/-- A RET from another entry, and a STEP that is no RET. -/
theorem witness_StackIsObservedOnlyThroughReturn :
    (∃ t, step { start 0x00EE [] with sp := 1 } = .next t ∧ t.pc = 2) ∧
    (∃ u, step { start 0x00EE [] with sp := 1, stack := Vector.replicate 16 0x204 } = .next u ∧ u.pc = 0x206) ∧
    (∃ t, step (start 0x6005 []) = .next t) ∧ ¬ Fetches (start 0x6005 []) .ret :=
  ⟨⟨_, rfl, rfl⟩, ⟨_, rfl, by decide⟩, ⟨_, rfl⟩, fun h => absurd h.2.2 (by decide)⟩

end Sys2Proof.Tests
end

section
/-! SUPPORT. What `decodeWord` answers for a word written field by field, group by group (spec/30_encoding.md R74, R75).
Each lemma reads the group off the word and takes the decoder's arm for it. -/

namespace Sys2Proof

@[simp] theorem decodeWord_group1 (nnn : Addr12) : decodeWord (0x1#4 ++ nnn) = .jp nnn := by simp [decodeWord]
@[simp] theorem decodeWord_group2 (nnn : Addr12) : decodeWord (0x2#4 ++ nnn) = .call nnn := by simp [decodeWord]
@[simp] theorem decodeWord_groupA (nnn : Addr12) : decodeWord (0xA#4 ++ nnn) = .ldI nnn := by simp [decodeWord]
@[simp] theorem decodeWord_groupB (nnn : Addr12) : decodeWord (0xB#4 ++ nnn) = .jpV0 nnn := by simp [decodeWord]

@[simp] theorem decodeWord_group3 (x : Nibble) (kk : Byte) : decodeWord (0x3#4 ++ x ++ kk) = .seImm x kk := by
  simp [decodeWord]
@[simp] theorem decodeWord_group4 (x : Nibble) (kk : Byte) : decodeWord (0x4#4 ++ x ++ kk) = .sneImm x kk := by
  simp [decodeWord]
@[simp] theorem decodeWord_group6 (x : Nibble) (kk : Byte) : decodeWord (0x6#4 ++ x ++ kk) = .ldImm x kk := by
  simp [decodeWord]
@[simp] theorem decodeWord_group7 (x : Nibble) (kk : Byte) : decodeWord (0x7#4 ++ x ++ kk) = .addImm x kk := by
  simp [decodeWord]
@[simp] theorem decodeWord_groupC (x : Nibble) (kk : Byte) : decodeWord (0xC#4 ++ x ++ kk) = .rnd x kk := by
  simp [decodeWord]

@[simp] theorem decodeWord_groupD (x y n : Nibble) : decodeWord (0xD#4 ++ x ++ y ++ n) = .drw x y n := by
  simp [decodeWord]

/-- Group 8 hands all three operand fields to its sub-dispatch. -/
@[simp] theorem decodeWord_group8 (x y n : Nibble) : decodeWord (0x8#4 ++ x ++ y ++ n) = decodeGroup8 x y n := by
  simp [decodeWord]

/-- The seven values of `N` that group 8 gives no instruction (R75). -/
theorem decodeGroup8_unrecognized (x y : Nibble) {n : Nibble}
    (hn : n ∈ [0x8#4, 0x9#4, 0xA#4, 0xB#4, 0xC#4, 0xD#4, 0xF#4]) : decodeGroup8 x y n = .unrec8 x y n := by
  simp only [List.mem_cons, List.not_mem_nil, or_false] at hn
  rcases hn with rfl | rfl | rfl | rfl | rfl | rfl | rfl <;> rfl

end Sys2Proof
end

section
/-! Groups without a sub-dispatch, and group 8 (spec/30_encoding.md R74, R75). -/

namespace Sys2Proof

/-- Settles O3: the ten plain groups by their decoder arms, group 8 by its sub-dispatch at each `N`. -/
theorem plainGroupsAndGroup8Decode : Obligations.PlainGroupsAndGroup8Decode := by
  unfold Obligations.PlainGroupsAndGroup8Decode
  refine ⟨decodeWord_group1, decodeWord_group2, decodeWord_group3, decodeWord_group4, decodeWord_group6,
    decodeWord_group7, decodeWord_groupA, decodeWord_groupB, decodeWord_groupC, decodeWord_groupD, fun x y => ?_⟩
  simp only [decodeWord_group8]
  exact ⟨rfl, rfl, rfl, rfl, rfl, rfl, rfl, rfl, rfl, fun n hn => decodeGroup8_unrecognized x y hn⟩

end Sys2Proof
end

section
/-! SUPPORT. The diagnostic outputs over the rest of a cycle (spec/40_engine.md R95): once the fetch has driven them,
neither the body nor the tick touches them. -/

namespace Sys2Proof.Machine

@[simp] theorem State.endCycle_diagValid (t : State) : t.endCycle.out.diagValid = t.out.diagValid := by
  rw [endCycle_eq]
  split <;> rfl
@[simp] theorem State.endCycle_diagWord (t : State) : t.endCycle.out.diagWord = t.out.diagWord := by
  rw [endCycle_eq]
  split <;> rfl
@[simp] theorem State.endCycle_diagPc (t : State) : t.endCycle.out.diagPc = t.out.diagPc := by
  rw [endCycle_eq]
  split <;> rfl

/-- The one output a body can write is `illegal_event`, so a completed, a faulting and a waiting body all keep the
diagnostics. -/
theorem exec_diagnostics {i : Instr} {s t : State} (h : exec i s = .next t) :
    t.out.diagValid = s.out.diagValid ∧ t.out.diagPc = s.out.diagPc ∧ t.out.diagWord = s.out.diagWord := by
  rw [exec_out h]
  split
  · exact ⟨rfl, rfl, rfl⟩
  · exact ⟨rfl, rfl, rfl⟩

end Sys2Proof.Machine
end

section
/-! The diagnostics of a fetched cycle (spec/40_engine.md R95). -/

namespace Sys2Proof.Machine

/-- Settles O14: the fetch drives the diagnostics, and the body and the end of the cycle keep them. -/
theorem diagnosticsOfEveryFetchedCycle : Obligations.DiagnosticsOfEveryFetchedCycle := by
  unfold Obligations.DiagnosticsOfEveryFetchedCycle
  intro s hrun hpc
  obtain ⟨t, hexec, hstep⟩ := step_of_fetches (fetches_of_run hrun hpc)
  obtain ⟨hvalid, hdiagPc, hword⟩ := exec_diagnostics hexec
  refine ⟨t.endCycle, hstep, ?_, ?_, ?_⟩
  · rw [State.endCycle_diagValid, hvalid, State.afterFetch_out]
  · rw [State.endCycle_diagPc, hdiagPc, State.afterFetch_out, State.beginStep_pc]
  · rw [State.endCycle_diagWord, hword, State.afterFetch_out, State.fetchedWord_beginStep]
    rfl

end Sys2Proof.Machine
end

section
/-! SUPPORT. The jump 1nnn (spec/41_flow.md R111): its body, and the STEP that runs it. -/

namespace Sys2Proof.Machine

theorem exec_jp (nnn : Addr12) (s : State) : exec (.jp nnn) s = .next { s with pc := zext12 nnn } := rfl

/-- A STEP that runs a jump ends in RUN at the target: the tick touches neither the mode nor the pc. -/
theorem step_jp {s : State} {nnn : Addr12} (h : Fetches s (.jp nnn)) :
    ∃ t, step s = .next t ∧ t.mode = .run ∧ t.pc.toNat = nnn.toNat := by
  have hrun : s.mode = .run := h.1
  obtain ⟨t, hexec, hstep⟩ := step_of_fetches h
  rw [exec_jp] at hexec
  cases hexec
  refine ⟨_, hstep, ?_, ?_⟩
  · rw [State.endCycle_mode]
    exact hrun
  · rw [State.endCycle_pc]
    exact zext12_toNat nnn

end Sys2Proof.Machine
end

section
/-! Control transfer (spec/41_flow.md). -/

namespace Sys2Proof.Machine

/-- Settles O16: the jump's body writes the pc alone, and a target above 4094 fails the fetch check of the next STEP. -/
theorem jumpSetsThePc : Obligations.JumpSetsThePc := by
  unfold Obligations.JumpSetsThePc
  refine ⟨decodeWord_group1, fun nnn s => ?_, fun nnn s hfetch htarget => ?_⟩
  · exact ⟨_, exec_jp nnn s, zext12_toNat nnn, body_frame rfl (exec_jp nnn s)⟩
  · obtain ⟨t, hstep, hrun, hpc⟩ := step_jp hfetch
    have hnext := step_fetchFails hrun (by omega)
    exact ⟨t, _, hstep, hrun, hnext, rfl, rfl⟩

end Sys2Proof.Machine
end

section
/-! SUPPORT. What a skip does to the state after the advance (spec/42_skip.md R120), in the form the skip claims state
it: the pc moves by the test, and nothing else changes. -/

namespace Sys2Proof.Machine

theorem exec_seImm (x : Nibble) (kk : Byte) (s : State) :
    exec (.seImm x kk) s = .next (s.skipIf (s.reg x == kk)) := rfl

theorem exec_sneImm (x : Nibble) (kk : Byte) (s : State) :
    exec (.sneImm x kk) s = .next (s.skipIf (s.reg x != kk)) := rfl

/-- A body that skips when two bytes are equal. -/
theorem exec_skipOnEqual {i : Instr} {s : State} {a b : Byte} (h : AfterAdvance s)
    (hexec : exec i s = .next (s.skipIf (a == b))) :
    ∃ t, exec i s = .next t ∧ t.pc.toNat = (if a = b then s.pc.toNat + 2 else s.pc.toNat) ∧
      SameExcept [.pc] s t := by
  refine ⟨_, hexec, ?_, skipIf_frame s _⟩
  rw [skipIf_pc_toNat h]
  simp only [beq_iff_eq]

/-- A body that skips when two bytes differ. -/
theorem exec_skipOnDifferent {i : Instr} {s : State} {a b : Byte} (h : AfterAdvance s)
    (hexec : exec i s = .next (s.skipIf (a != b))) :
    ∃ t, exec i s = .next t ∧ t.pc.toNat = (if a = b then s.pc.toNat else s.pc.toNat + 2) ∧
      SameExcept [.pc] s t := by
  refine ⟨_, hexec, ?_, skipIf_frame s _⟩
  rw [skipIf_pc_toNat h]
  simp only [bne_iff_ne, ite_not]

end Sys2Proof.Machine
end

section
/-! Conditional skips (spec/42_skip.md). -/

namespace Sys2Proof.Machine

/-- Settles O23: the two words decode by their groups, and each body is a skip on its own test of x[X] against KK. -/
theorem skipOnImmediate : Obligations.SkipOnImmediate := by
  unfold Obligations.SkipOnImmediate
  refine ⟨fun x kk => ⟨decodeWord_group3 x kk, decodeWord_group4 x kk⟩, fun x kk s h => ⟨?_, ?_⟩⟩
  · exact exec_skipOnEqual h (exec_seImm x kk s)
  · exact exec_skipOnDifferent h (exec_sneImm x kk s)

end Sys2Proof.Machine
end

section
/-! SUPPORT. Bodies of groups 6, 7 and 8 that write their result to x[X] and no flag (spec/43_alu.md R131 to R136): each
is one register write, and what that write does to the whole state is said once. -/

namespace Sys2Proof.Machine

theorem exec_ldImm (x : Nibble) (kk : Byte) (s : State) : exec (.ldImm x kk) s = .next (s.setReg x kk) := rfl

theorem exec_addImm (x : Nibble) (kk : Byte) (s : State) :
    exec (.addImm x kk) s = .next (s.setReg x (s.reg x + kk)) := rfl

theorem exec_ldReg (x y : Nibble) (s : State) : exec (.ldReg x y) s = .next (s.setReg x (s.reg y)) := rfl

theorem exec_orReg (x y : Nibble) (s : State) :
    exec (.orReg x y) s = .next (s.setReg x (s.reg x ||| s.reg y)) := rfl

theorem exec_andReg (x y : Nibble) (s : State) :
    exec (.andReg x y) s = .next (s.setReg x (s.reg x &&& s.reg y)) := rfl

theorem exec_xorReg (x y : Nibble) (s : State) :
    exec (.xorReg x y) s = .next (s.setReg x (s.reg x ^^^ s.reg y)) := rfl

/-- A body that is one register write: every register after it, and everything else kept. -/
theorem exec_writesRegister {i : Instr} {s : State} {x : Nibble} {v : Byte}
    (hexec : exec i s = .next (s.setReg x v)) :
    ∃ t, exec i s = .next t ∧ (∀ r, t.reg r = if r = x then v else s.reg r) ∧ SameExcept [.regs] s t :=
  ⟨_, hexec, fun r => s.reg_setReg x r v, setReg_frame s x v⟩

/-- The same, for a value known by its bits. -/
theorem exec_writesRegisterBits {i : Instr} {s : State} {x : Nibble} {v : Byte} {bit : Nat → Bool}
    (hexec : exec i s = .next (s.setReg x v)) (hbit : ∀ b, v.getLsbD b = bit b) :
    ∃ t, exec i s = .next t ∧ (∀ r, r ≠ x → t.reg r = s.reg r) ∧ (∀ b < 8, (t.reg x).getLsbD b = bit b) ∧
      SameExcept [.regs] s t := by
  obtain ⟨t, ht, hreg, hframe⟩ := exec_writesRegister hexec
  refine ⟨t, ht, fun r hr => ?_, fun b _ => ?_, hframe⟩
  · rw [hreg, if_neg hr]
  · rw [hreg, if_pos rfl, hbit]

end Sys2Proof.Machine
end

section
/-! Register and arithmetic instructions (spec/43_alu.md). -/

namespace Sys2Proof.Machine

/-- Settles O26: both words decode by their groups, and both bodies are one write of x[X]. -/
theorem loadAndCopyRegister : Obligations.LoadAndCopyRegister := by
  unfold Obligations.LoadAndCopyRegister
  refine ⟨decodeWord_group6, fun x y => ?_, fun x kk s => ?_, fun x y s => ?_⟩
  · rw [decodeWord_group8]
    rfl
  · exact exec_writesRegister (exec_ldImm x kk s)
  · exact exec_writesRegister (exec_ldReg x y s)

/-- Settles O27: the body is one write of x[X], and 8-bit addition is the sum mod 256. -/
theorem addImmediateWithoutCarry : Obligations.AddImmediateWithoutCarry := by
  unfold Obligations.AddImmediateWithoutCarry
  refine ⟨decodeWord_group7, fun x kk s => ?_⟩
  obtain ⟨t, ht, hreg, hframe⟩ := exec_writesRegister (exec_addImm x kk s)
  refine ⟨t, ht, fun r => ?_, hframe⟩
  rw [hreg, apply_ite BitVec.toNat, BitVec.toNat_add]

/-- Settles O28: the three words decode by group 8's sub-dispatch, and each body writes to x[X] the value whose bits
are the operation on the operands' bits. -/
theorem logicOfTwoRegisters : Obligations.LogicOfTwoRegisters := by
  unfold Obligations.LogicOfTwoRegisters
  refine ⟨fun x y => ?_, fun x y s => ⟨?_, ?_, ?_⟩⟩
  · simp only [decodeWord_group8]
    exact ⟨rfl, rfl, rfl⟩
  · exact exec_writesRegisterBits (exec_orReg x y s) fun _ => BitVec.getLsbD_or
  · exact exec_writesRegisterBits (exec_andReg x y s) fun _ => BitVec.getLsbD_and
  · exact exec_writesRegisterBits (exec_xorReg x y s) fun _ => BitVec.getLsbD_xor

end Sys2Proof.Machine
end

section
/-! Index register and memory transfers (spec/44_index_memory.md). -/

namespace Sys2Proof.Machine

theorem exec_ldI (nnn : Addr12) (s : State) : exec (.ldI nnn) s = .next { s with i := zext12 nnn } := rfl

/-- Settles O34: group A decodes to LD I, whose body writes NNN zero-extended to I and, as it never faults, has I as
its whole frame. -/
theorem loadIndex : Obligations.LoadIndex := by
  unfold Obligations.LoadIndex
  refine ⟨decodeWord_groupA, fun nnn s => ?_⟩
  exact ⟨_, exec_ldI nnn s, zext12_toNat nnn, body_frame rfl (exec_ldI nnn s)⟩

end Sys2Proof.Machine
end

section
/-! SUPPORT. The delay timer: Fx07's word and body (spec/46_timers_keys.md R170), and a timer at the end of a cycle
whose body stayed in RUN (spec/40_engine.md R94). -/

namespace Sys2Proof

/-- Group F hands `X` and `KK` to its sub-dispatch. -/
@[simp] theorem decodeWord_groupF (x : Nibble) (kk : Byte) : decodeWord (0xF#4 ++ x ++ kk) = decodeGroupF x kk := by
  simp [decodeWord]

end Sys2Proof

namespace Sys2Proof.Machine

theorem exec_ldDT (x : Nibble) (s : State) : exec (.ldDT x) s = .next (s.setReg x s.dt) := rfl

theorem endCycle_dt_toNat {t : State} (h : t.mode = .run) : t.endCycle.dt.toNat = t.dt.toNat - 1 := by
  rw [endCycle_run h, State.tick_dt, timerDown_toNat]

end Sys2Proof.Machine
end

section
/-! Timers and keys (spec/46_timers_keys.md). -/

namespace Sys2Proof.Machine

/-- Settles O48: the body copies DT to x[X] and leaves the machine in RUN, so the tick that follows takes DT one
lower and keeps the copy. -/
theorem readDelayTimer : Obligations.ReadDelayTimer := by
  unfold Obligations.ReadDelayTimer
  refine ⟨fun x => ?_, fun x s => exec_writesRegister (exec_ldDT x s), fun x s hfetch => ?_⟩
  · rw [decodeWord_groupF]
    rfl
  · have hrun : s.mode = .run := hfetch.1
    obtain ⟨t, hexec, hstep⟩ := step_of_fetches hfetch
    rw [exec_ldDT] at hexec
    cases hexec
    refine ⟨_, hstep, ?_, ?_⟩
    · rw [State.reg_endCycle, State.reg_setReg_self, State.afterFetch_dt, State.beginStep_dt]
    · exact endCycle_dt_toNat hrun

end Sys2Proof.Machine
end

section
/-! SUPPORT. The groups with a sub-dispatch and those whose low nibble is no operand (spec/30_encoding.md R75 to R78),
and the three facts each sub-dispatch has: its UNRECOGNIZED rest, that it gives well-formed instructions, and that the
encoder undoes it. -/

namespace Sys2Proof

@[simp] theorem decodeWord_group0 (nnn : Addr12) : decodeWord (0x0#4 ++ nnn) = decodeGroup0 nnn := by
  simp [decodeWord]
@[simp] theorem decodeWord_group5 (x y n : Nibble) : decodeWord (0x5#4 ++ x ++ y ++ n) = .seReg x y n := by
  simp [decodeWord]
@[simp] theorem decodeWord_group9 (x y n : Nibble) : decodeWord (0x9#4 ++ x ++ y ++ n) = .sneReg x y n := by
  simp [decodeWord]
@[simp] theorem decodeWord_groupE (x : Nibble) (kk : Byte) : decodeWord (0xE#4 ++ x ++ kk) = decodeGroupE x kk := by
  simp [decodeWord]

/-! ## What is left over is UNRECOGNIZED -/

theorem decodeGroup0_of_notMem {nnn : Addr12} (h : nnn ∉ group0Codes) : decodeGroup0 nnn = .unrec0 nnn := by
  simp only [group0Codes, List.mem_cons, List.not_mem_nil, or_false, not_or] at h
  simp [decodeGroup0, h]

theorem decodeGroup8_of_notMem (x y : Nibble) {n : Nibble} (h : n ∉ group8Codes) :
    decodeGroup8 x y n = .unrec8 x y n :=
  decodeGroup8_unrecognized x y (by revert n; decide)

theorem decodeGroupE_of_notMem (x : Nibble) {kk : Byte} (h : kk ∉ groupECodes) :
    decodeGroupE x kk = .unrecE x kk := by
  simp only [groupECodes, List.mem_cons, List.not_mem_nil, or_false, not_or] at h
  simp [decodeGroupE, h]

theorem decodeGroupF_of_notMem (x : Nibble) {kk : Byte} (h : kk ∉ groupFCodes) :
    decodeGroupF x kk = .unrecF x kk := by
  simp only [groupFCodes, List.mem_cons, List.not_mem_nil, or_false, not_or] at h
  simp [decodeGroupF, h]

/-! ## Well-formedness of an UNRECOGNIZED word -/

theorem wf_unrec0_iff {nnn : Addr12} : (Instr.unrec0 nnn).WellFormed ↔ nnn ∉ group0Codes := by
  simp [Instr.WellFormed, Instr.wf]
theorem wf_unrec8_iff {x y n : Nibble} : (Instr.unrec8 x y n).WellFormed ↔ n ∉ group8Codes := by
  simp [Instr.WellFormed, Instr.wf]
theorem wf_unrecE_iff {x : Nibble} {kk : Byte} : (Instr.unrecE x kk).WellFormed ↔ kk ∉ groupECodes := by
  simp [Instr.WellFormed, Instr.wf]
theorem wf_unrecF_iff {x : Nibble} {kk : Byte} : (Instr.unrecF x kk).WellFormed ↔ kk ∉ groupFCodes := by
  simp [Instr.WellFormed, Instr.wf]

theorem decodeGroup0_wf (nnn : Addr12) : (decodeGroup0 nnn).WellFormed := by
  by_cases h : nnn ∈ group0Codes
  · fin_cases h <;> rfl
  · rw [decodeGroup0_of_notMem h]
    exact wf_unrec0_iff.mpr h

theorem decodeGroup8_wf (x y n : Nibble) : (decodeGroup8 x y n).WellFormed := by
  by_cases h : n ∈ group8Codes
  · fin_cases h <;> rfl
  · rw [decodeGroup8_of_notMem x y h]
    exact wf_unrec8_iff.mpr h

theorem decodeGroupE_wf (x : Nibble) (kk : Byte) : (decodeGroupE x kk).WellFormed := by
  by_cases h : kk ∈ groupECodes
  · fin_cases h <;> rfl
  · rw [decodeGroupE_of_notMem x h]
    exact wf_unrecE_iff.mpr h

theorem decodeGroupF_wf (x : Nibble) (kk : Byte) : (decodeGroupF x kk).WellFormed := by
  by_cases h : kk ∈ groupFCodes
  · fin_cases h <;> rfl
  · rw [decodeGroupF_of_notMem x h]
    exact wf_unrecF_iff.mpr h

/-! ## The encoder undoes the sub-dispatch -/

theorem encode_decodeGroup0 (nnn : Addr12) : encode (decodeGroup0 nnn) = 0x0#4 ++ nnn := by
  by_cases h : nnn ∈ group0Codes
  · fin_cases h <;> rfl
  · rw [decodeGroup0_of_notMem h]
    rfl

theorem encode_decodeGroup8 (x y n : Nibble) : encode (decodeGroup8 x y n) = 0x8#4 ++ x ++ y ++ n := by
  by_cases h : n ∈ group8Codes
  · fin_cases h <;> rfl
  · rw [decodeGroup8_of_notMem x y h]
    rfl

theorem encode_decodeGroupE (x : Nibble) (kk : Byte) : encode (decodeGroupE x kk) = 0xE#4 ++ x ++ kk := by
  by_cases h : kk ∈ groupECodes
  · fin_cases h <;> rfl
  · rw [decodeGroupE_of_notMem x h]
    rfl

theorem encode_decodeGroupF (x : Nibble) (kk : Byte) : encode (decodeGroupF x kk) = 0xF#4 ++ x ++ kk := by
  by_cases h : kk ∈ groupFCodes
  · fin_cases h <;> rfl
  · rw [decodeGroupF_of_notMem x h]
    rfl

/-! ## A word by its group -/

theorem nibble_mem_all : ∀ g : Nibble, g ∈ [0x0#4, 0x1#4, 0x2#4, 0x3#4, 0x4#4, 0x5#4, 0x6#4, 0x7#4, 0x8#4, 0x9#4,
    0xA#4, 0xB#4, 0xC#4, 0xD#4, 0xE#4, 0xF#4] := by
  decide

/-- What holds of every word of each of the sixteen groups, split into that group's fields, holds of every word. -/
theorem word_byGroup {P : Word → Prop}
    (group0 : ∀ nnn : Addr12, P (0x0#4 ++ nnn)) (group1 : ∀ nnn : Addr12, P (0x1#4 ++ nnn))
    (group2 : ∀ nnn : Addr12, P (0x2#4 ++ nnn)) (group3 : ∀ (x : Nibble) (kk : Byte), P (0x3#4 ++ x ++ kk))
    (group4 : ∀ (x : Nibble) (kk : Byte), P (0x4#4 ++ x ++ kk)) (group5 : ∀ x y n : Nibble, P (0x5#4 ++ x ++ y ++ n))
    (group6 : ∀ (x : Nibble) (kk : Byte), P (0x6#4 ++ x ++ kk))
    (group7 : ∀ (x : Nibble) (kk : Byte), P (0x7#4 ++ x ++ kk))
    (group8 : ∀ x y n : Nibble, P (0x8#4 ++ x ++ y ++ n)) (group9 : ∀ x y n : Nibble, P (0x9#4 ++ x ++ y ++ n))
    (groupA : ∀ nnn : Addr12, P (0xA#4 ++ nnn)) (groupB : ∀ nnn : Addr12, P (0xB#4 ++ nnn))
    (groupC : ∀ (x : Nibble) (kk : Byte), P (0xC#4 ++ x ++ kk)) (groupD : ∀ x y n : Nibble, P (0xD#4 ++ x ++ y ++ n))
    (groupE : ∀ (x : Nibble) (kk : Byte), P (0xE#4 ++ x ++ kk))
    (groupF : ∀ (x : Nibble) (kk : Byte), P (0xF#4 ++ x ++ kk)) (w : Word) : P w := by
  have haddr := word_eq_addr w
  have himm := word_eq_imm w
  have hregs := word_eq_regs w
  have hg := nibble_mem_all (fieldG w)
  generalize fieldG w = g at haddr himm hregs hg
  fin_cases hg
  · exact haddr ▸ group0 _
  · exact haddr ▸ group1 _
  · exact haddr ▸ group2 _
  · exact himm ▸ group3 _ _
  · exact himm ▸ group4 _ _
  · exact hregs ▸ group5 _ _ _
  · exact himm ▸ group6 _ _
  · exact himm ▸ group7 _ _
  · exact hregs ▸ group8 _ _ _
  · exact hregs ▸ group9 _ _ _
  · exact haddr ▸ groupA _
  · exact haddr ▸ groupB _
  · exact himm ▸ groupC _ _
  · exact hregs ▸ groupD _ _ _
  · exact himm ▸ groupE _ _
  · exact himm ▸ groupF _ _

end Sys2Proof
end

section
/-! Decoding and encoding are inverse (spec/30_encoding.md R73, R80, R82). -/

namespace Sys2Proof

/-- Settles O1: the word of each constructor is written field by field, so its group's lemma reads the fields back; for
an UNRECOGNIZED word well-formedness keeps it from every instruction of its group. -/
theorem decodeOfEncodeIsTheInstruction : Obligations.DecodeOfEncodeIsTheInstruction := by
  unfold Obligations.DecodeOfEncodeIsTheInstruction
  intro i hwf
  cases i with
  | cls => rfl
  | ret => rfl
  | jp nnn => exact decodeWord_group1 nnn
  | call nnn => exact decodeWord_group2 nnn
  | seImm x kk => exact decodeWord_group3 x kk
  | sneImm x kk => exact decodeWord_group4 x kk
  | seReg x y n => exact decodeWord_group5 x y n
  | ldImm x kk => exact decodeWord_group6 x kk
  | addImm x kk => exact decodeWord_group7 x kk
  | ldReg x y | orReg x y | andReg x y | xorReg x y | addReg x y | subReg x y | shr x y | subnReg x y | shl x y =>
    exact decodeWord_group8 x y _
  | sneReg x y n => exact decodeWord_group9 x y n
  | ldI nnn => exact decodeWord_groupA nnn
  | jpV0 nnn => exact decodeWord_groupB nnn
  | rnd x kk => exact decodeWord_groupC x kk
  | drw x y n => exact decodeWord_groupD x y n
  | skp x | sknp x => exact decodeWord_groupE x _
  | ldDT x | ldKey x | setDT x | setST x | addI x | ldF x | ldB x | store x | load x => exact decodeWord_groupF x _
  | unrec0 nnn => exact (decodeWord_group0 nnn).trans (decodeGroup0_of_notMem (wf_unrec0_iff.mp hwf))
  | unrec8 x y n => exact (decodeWord_group8 x y n).trans (decodeGroup8_of_notMem x y (wf_unrec8_iff.mp hwf))
  | unrecE x kk => exact (decodeWord_groupE x kk).trans (decodeGroupE_of_notMem x (wf_unrecE_iff.mp hwf))
  | unrecF x kk => exact (decodeWord_groupF x kk).trans (decodeGroupF_of_notMem x (wf_unrecF_iff.mp hwf))

theorem decodeWord_wf (w : Word) : (decodeWord w).WellFormed := by
  induction w using word_byGroup with
  | group0 nnn => rw [decodeWord_group0]; exact decodeGroup0_wf nnn
  | group8 x y n => rw [decodeWord_group8]; exact decodeGroup8_wf x y n
  | groupE x kk => rw [decodeWord_groupE]; exact decodeGroupE_wf x kk
  | groupF x kk => rw [decodeWord_groupF]; exact decodeGroupF_wf x kk
  | group1 | group2 | group3 | group4 | group5 | group6 | group7 | group9 | groupA | groupB | groupC | groupD =>
    simp [Instr.WellFormed, Instr.wf]

theorem encode_decodeWord (w : Word) : encode (decodeWord w) = w := by
  induction w using word_byGroup with
  | group0 nnn => rw [decodeWord_group0, encode_decodeGroup0]
  | group8 x y n => rw [decodeWord_group8, encode_decodeGroup8]
  | groupE x kk => rw [decodeWord_groupE, encode_decodeGroupE]
  | groupF x kk => rw [decodeWord_groupF, encode_decodeGroupF]
  | group1 | group2 | group3 | group4 | group5 | group6 | group7 | group9 | groupA | groupB | groupC | groupD =>
    simp [encode]

/-- Settles O2: group by group the decoder gives a well-formed instruction that the encoder takes back to the word. -/
theorem encodeOfDecodeIsTheWord : Obligations.EncodeOfDecodeIsTheWord := by
  unfold Obligations.EncodeOfDecodeIsTheWord
  exact fun w => ⟨decodeWord_wf w, encode_decodeWord w⟩

/-- Settles O4: group 0 by its two words and the rest, groups 5 and 9 whole, groups E and F by their tested bytes. -/
theorem otherGroupsDispatch : Obligations.OtherGroupsDispatch := by
  unfold Obligations.OtherGroupsDispatch
  refine ⟨⟨rfl, rfl, fun nnn hcls hret => ?_⟩, fun x y n => ⟨decodeWord_group5 x y n, decodeWord_group9 x y n⟩,
    fun x => ?_, fun x => ?_⟩
  · rw [decodeWord_group0]
    exact decodeGroup0_of_notMem (by simp [group0Codes, hcls, hret])
  · simp only [decodeWord_groupE]
    exact ⟨rfl, rfl, fun kk hskp hsknp => decodeGroupE_of_notMem x (by simp [groupECodes, hskp, hsknp])⟩
  · simp only [decodeWord_groupF]
    exact ⟨rfl, rfl, rfl, rfl, rfl, rfl, rfl, rfl, rfl, fun kk h => decodeGroupF_of_notMem x h⟩

/-- Settles O5: each word is closed, so the decoder computes its instruction. -/
theorem sampleWordsDecode : Obligations.SampleWordsDecode := by
  unfold Obligations.SampleWordsDecode
  exact ⟨rfl, rfl, rfl, rfl, rfl, rfl, rfl, rfl, rfl, rfl, rfl⟩

end Sys2Proof
end

section
/-! SUPPORT. Frames of whole cycles, and the outputs at the end of one (spec/40_engine.md R90 to R100). -/

namespace Sys2Proof.Machine

/-! ## Frames -/

/-- A part that came back to its value leaves the list of changed parts. -/
theorem SameExcept.restore {ps qs : List Part} {p : Part} {s t : State} (h : SameExcept ps s t) (hp : p.same s t)
    (hqs : ∀ q ∈ ps, q = p ∨ q ∈ qs) : SameExcept qs s t := by
  intro q hq
  by_cases hqp : q = p
  · exact hqp ▸ hp
  · exact h q fun hmem => (hqs q hmem).elim hqp hq

theorem beginStep_frame (s : State) : SameExcept [.outputs, .loadOpen] s s.beginStep := by
  intro p hp
  cases p <;> simp_all [Part.same]

/-- What a STEP that fetches `i` without a fault can change: what the fetch, the body and the end of the cycle do. -/
theorem step_frame {s t : State} {i : Instr} (hf : Fetches s i) (hb : bodyFault i s = .none) (h : step s = .next t) :
    SameExcept ([.pc, .outputs, .loadOpen] ++ bodyChanges i ++ [.dt, .st, .outputs]) s t := by
  obtain ⟨u, hexec, hstep⟩ := step_of_fetches hf
  rw [hstep] at h
  cases h
  have hbody : SameExcept (bodyChanges i) s.beginStep.afterFetch u :=
    body_frame (by rw [bodyFault_afterFetch, hb]) hexec
  exact ((afterFetch_frame s).trans hbody).trans (endCycle_frame u)

/-- The states a fault can be taken from: before the fetch, or after the advance. Put back at the fetch address, both
differ from the state before the STEP in the engine-state registers and the outputs only (R96). -/
theorem stepFault_frame {s b : State} (hb : b = s.beginStep ∨ b = s.beginStep.afterFetch) (c : FaultCode) :
    SameExcept [.mode, .faultCode, .faultPc, .outputs, .loadOpen] s (b.enterFault c s.pc) := by
  have hframe : SameExcept ([.pc, .outputs, .loadOpen] ++ [.pc, .mode, .faultCode, .faultPc]) s
      (b.enterFault c s.pc) := by
    rcases hb with rfl | rfl
    · exact ((beginStep_frame s).mono (by simp)).trans (enterFault_frame _ _ _)
    · exact (afterFetch_frame s).trans (enterFault_frame _ _ _)
  exact hframe.restore (p := .pc) rfl (by simp)

/-! ## The end of a cycle -/

theorem endCycle_eq_ite (t : State) : t.endCycle = if t.mode = .run then t.tick else t := by
  split
  · exact endCycle_run ‹_›
  · exact endCycle_not_run ‹_›

theorem endCycle_st_toNat {t : State} (h : t.mode = .run) : t.endCycle.st.toNat = t.st.toNat - 1 := by
  rw [endCycle_run h, State.tick_st, timerDown_toNat]

@[simp] theorem State.endCycle_illegalEvent (t : State) : t.endCycle.out.illegalEvent = t.out.illegalEvent := by
  rw [endCycle_eq]
  split <;> rfl

/-- The tick drives `sound_event` when ST goes from 1 to 0 (R94). -/
theorem endCycle_soundEvent_iff {t : State} (h : t.mode = .run) (hsound : t.out.soundEvent = false) :
    t.endCycle.out.soundEvent = true ↔ t.st = 1 := by
  rw [endCycle_run h, State.tick_out, hsound, Bool.false_or, beq_iff_eq]

/-! ## The outputs a body leaves -/

theorem exec_soundEvent {i : Instr} {s t : State} (h : exec i s = .next t) : t.out.soundEvent = s.out.soundEvent := by
  rw [exec_out h]
  split <;> rfl

theorem exec_illegalEvent {i : Instr} {s t : State} (h : exec i s = .next t) :
    t.out.illegalEvent = (isUnrecognized i || s.out.illegalEvent) := by
  rw [exec_out h]
  cases isUnrecognized i <;> rfl

theorem bodyFault_of_isUnrecognized {i : Instr} (h : isUnrecognized i = true) (s : State) :
    bodyFault i s = .none := by
  cases i with
  | unrec0 | unrec8 | unrecE | unrecF => rfl
  | _ => cases h

/-! ## The fetched instruction -/

theorem Fetches.unique {s : State} {i j : Instr} (hi : Fetches s i) (hj : Fetches s j) : i = j :=
  hi.2.2.symm.trans hj.2.2

/-- Everything a STEP from RUN can do: take the fault of R181's table at the fetch address, or run a body that does not
fault and end the cycle outside FAULT. -/
theorem step_run_cases {s : State} (hrun : s.mode = .run) :
    (stepFault s ≠ .none ∧ ∃ b, (b = s.beginStep ∨ b = s.beginStep.afterFetch) ∧
      step s = .next (b.enterFault (stepFault s) s.pc)) ∨
    (stepFault s = .none ∧ ∃ i t, Fetches s i ∧ bodyFault i s = .none ∧ exec i s.beginStep.afterFetch = .next t ∧
      t.mode ≠ .fault ∧ step s = .next t.endCycle) := by
  unfold stepFault
  by_cases hp : 4094 < s.pc.toNat
  · rw [if_pos hp]
    exact .inl ⟨by simp, _, .inl rfl, step_fetchFails hrun hp⟩
  · rw [if_neg hp]
    have hf := fetches_of_run hrun (by omega)
    rcases step_fetched_cases hf with ⟨hb, hstep⟩ | ⟨hb, t, hexec, hmode, hstep⟩
    · exact .inl ⟨hb, _, .inr rfl, hstep⟩
    · exact .inr ⟨hb, _, t, hf, hb, hexec, hmode, hstep⟩

end Sys2Proof.Machine
end

section
/-! The engine (spec/40_engine.md). -/

namespace Sys2Proof.Machine

/-- Settles O6: the state after the advance is the one the body starts from, and the end of the cycle is the tick
exactly in RUN. -/
theorem stepRunsTheDecodedInstruction : Obligations.StepRunsTheDecodedInstruction := by
  unfold Obligations.StepRunsTheDecodedInstruction
  intro s i hf
  have hpc : s.pc.toNat ≤ 4094 := hf.2.1
  obtain ⟨t, hexec, hstep⟩ := step_of_fetches hf
  rw [endCycle_eq_ite] at hstep
  exact ⟨hf.2.2 ▸ decodeWord_wf _, s.beginStep.afterFetch, afterFetch_afterAdvance hpc, pc_advance hpc, rfl, rfl, rfl,
    afterFetch_frame s, .inl ⟨t, hexec, hstep⟩⟩

/-- Settles O7: no body drives `sound_event`, so after a cycle it is the tick's, and without a tick it stays 0. -/
theorem tickCountsCompletedCycles : Obligations.TickCountsCompletedCycles := by
  unfold Obligations.TickCountsCompletedCycles
  intro s t hrun hpc hexec
  have hstep : step s = .next t.endCycle := by
    rw [step_fetched hrun hpc, hexec]
    rfl
  have hsound : t.out.soundEvent = false := exec_soundEvent hexec
  refine ⟨_, hstep, fun h => ?_, fun h => ?_, endCycle_frame t⟩
  · exact ⟨endCycle_dt_toNat h, endCycle_st_toNat h, endCycle_soundEvent_iff h hsound⟩
  · rw [endCycle_not_run h]
    exact ⟨rfl, rfl, hsound⟩

/-- Settles O8: the fetch check fails before anything is driven. -/
theorem fetchPastTheEndFaults : Obligations.FetchPastTheEndFaults := by
  unfold Obligations.FetchPastTheEndFaults
  intro s hrun hpc
  exact ⟨_, step_fetchFails hrun hpc, rfl, rfl, rfl, rfl, stepFault_frame (.inl rfl) _⟩

/-- Settles O9: outside RUN a STEP is its beginning. -/
theorem haltedStepsOnlyClearOutputs : Obligations.HaltedStepsOnlyClearOutputs := by
  unfold Obligations.HaltedStepsOnlyClearOutputs
  intro s hmode
  have hstep : step s = .next s.beginStep := hmode.elim step_waitKey step_fault
  exact ⟨_, hstep, rfl, rfl, beginStep_frame s⟩

/-- Settles O10: each of the four cases of a STEP names its next state. -/
theorem everyStepAnswersANextState : Obligations.EveryStepAnswersANextState := by
  unfold Obligations.EveryStepAnswersANextState
  intro s
  rcases step_cases s with ⟨-, h⟩ | ⟨-, h⟩ | ⟨-, -, h⟩ | ⟨-, t, -, -, h⟩
  · exact ⟨_, h⟩
  · exact ⟨_, h⟩
  · exact ⟨_, h⟩
  · exact ⟨_, h⟩

/-- Settles O11: only a STEP that takes a fault ends in FAULT, and it enters from a state where nothing but the outputs
and the pc has moved, with the pc put back. -/
theorem faultsArePrecise : Obligations.FaultsArePrecise := by
  unfold Obligations.FaultsArePrecise
  intro s t hrun hstep hfault
  rcases step_run_cases hrun with ⟨hcode, b, hb, h⟩ | ⟨-, i, u, -, -, -, hmode, h⟩ <;> rw [h] at hstep <;> cases hstep
  · have hsound : b.out.soundEvent = false := by rcases hb with rfl | rfl <;> rfl
    have hillegal : b.out.illegalEvent = false := by rcases hb with rfl | rfl <;> rfl
    exact ⟨rfl, rfl, hcode, hsound, hillegal, stepFault_frame hb _⟩
  · rw [State.endCycle_mode] at hfault
    exact absurd hfault hmode

/-- Settles O12: a STEP from RUN takes the table's fault, or runs to a state outside FAULT. -/
theorem faultsExactlyAsTabled : Obligations.FaultsExactlyAsTabled := by
  unfold Obligations.FaultsExactlyAsTabled
  intro s hrun
  rcases step_run_cases hrun with ⟨hcode, b, -, h⟩ | ⟨hnone, i, u, -, -, -, hmode, h⟩
  · exact ⟨_, h, fun hnone => absurd hnone hcode, fun _ => ⟨rfl, rfl⟩⟩
  · exact ⟨_, h, fun _ => by rwa [State.endCycle_mode], fun hcode => absurd hnone hcode⟩

/-- Settles O13: the body is `markIllegal`, which writes the one output, and its cycle ticks as every completed cycle
does. -/
theorem unrecognizedWordIsANoOp : Obligations.UnrecognizedWordIsANoOp := by
  unfold Obligations.UnrecognizedWordIsANoOp
  refine ⟨fun i s hu => ⟨_, exec_of_isUnrecognized hu s, rfl, markIllegal_frame s⟩, fun i s hf hu => ?_⟩
  have hrun : s.mode = .run := hf.1
  obtain ⟨u, hexec, hstep⟩ := step_of_fetches hf
  have hframe := step_frame hf (bodyFault_of_isUnrecognized hu s) hstep
  rw [exec_of_isUnrecognized hu] at hexec
  cases hexec
  refine ⟨_, hstep, ?_, endCycle_dt_toNat hrun, endCycle_st_toNat hrun, ?_, ?_, ?_, ?_, hframe.mono ?_⟩
  · rw [State.endCycle_pc]
    exact pc_advance hf.2.1
  · rw [State.endCycle_illegalEvent, State.markIllegal_out]
  · rw [State.endCycle_diagValid]
    rfl
  · rw [State.endCycle_diagPc]
    rfl
  · rw [State.endCycle_diagWord]
    rfl
  · have hparts : bodyChanges i = [.outputs] := by
      cases i with
      | unrec0 | unrec8 | unrecE | unrecF => rfl
      | _ => cases hu
    simp [hparts]

/-- Settles O15: a STEP that fetches nothing clears the output, and one that fetches drives it by the body of an
UNRECOGNIZED word alone. -/
theorem illegalEventOnlyForUnrecognizedWords : Obligations.IllegalEventOnlyForUnrecognizedWords := by
  unfold Obligations.IllegalEventOnlyForUnrecognizedWords
  intro s t hstep
  rcases step_cases s with ⟨hm, h⟩ | ⟨hm, h⟩ | ⟨-, hp, h⟩ | ⟨i, u, hf, hexec, h⟩ <;> rw [h] at hstep <;> cases hstep
  · refine iff_of_false Bool.false_ne_true ?_
    rintro ⟨i, ⟨hrun, -, -⟩, -⟩
    simp [hm] at hrun
  · refine iff_of_false Bool.false_ne_true ?_
    rintro ⟨i, ⟨hrun, -, -⟩, -⟩
    simp [hm] at hrun
  · refine iff_of_false Bool.false_ne_true ?_
    rintro ⟨i, ⟨-, hpc, -⟩, -⟩
    omega
  · have hu : u.out.illegalEvent = isUnrecognized i := (exec_illegalEvent hexec).trans (Bool.or_false _)
    rw [State.endCycle_illegalEvent, hu]
    refine ⟨fun h => ⟨i, hf, h⟩, ?_⟩
    rintro ⟨j, hj, h⟩
    rwa [hf.unique hj]

end Sys2Proof.Machine
end

section
/-! SUPPORT. What a STEP does to memory, and the two bounds a body keeps (spec/10_state.md R27, spec/41_flow.md R110). -/

namespace Sys2Proof.Machine

/-- A STEP keeps the parameter GLYPHS and the canonical form, and a byte it changes is in the range, within 80..4095, of
the Fx33 or Fx55 it fetched. -/
theorem step_mem {s t : State} (h : step s = .next t) :
    t.mem.glyphs = s.mem.glyphs ∧ (s.mem.wf → t.mem.wf) ∧
      ∀ a, t.mem.read a ≠ s.mem.read a → 80 ≤ a ∧ a ≤ 4095 ∧ s.i.toNat ≤ a ∧
        ((∃ x, Fetches s (.ldB x) ∧ a ≤ s.i.toNat + 2) ∨ (∃ x, Fetches s (.store x) ∧ a ≤ s.i.toNat + x.toNat)) := by
  rcases step_cases s with ⟨-, hs⟩ | ⟨-, hs⟩ | ⟨-, -, hs⟩ | ⟨i, u, hf, hexec, hs⟩ <;> rw [hs] at h <;> cases h
  · exact ⟨rfl, id, fun a ha => absurd rfl ha⟩
  · exact ⟨rfl, id, fun a ha => absurd rfl ha⟩
  · exact ⟨rfl, id, fun a ha => absurd rfl ha⟩
  · obtain ⟨hglyphs, hwf, hread⟩ := exec_mem hexec
    rw [State.endCycle_mem]
    refine ⟨hglyphs, hwf, fun a ha => ?_⟩
    obtain ⟨hlow, hhigh, hi, hrange⟩ := hread a ha
    refine ⟨hlow, hhigh, hi, ?_⟩
    rcases hrange with ⟨x, rfl, hle⟩ | ⟨x, rfl, hle⟩
    · exact .inl ⟨x, hf, hle⟩
    · exact .inr ⟨x, hf, hle⟩

/-- No STEP changes a byte of the glyph region (spec/20_memory.md R55). -/
theorem step_read_glyphs {s t : State} (h : step s = .next t) {a : Nat} (ha : a < 80) :
    t.mem.read a = s.mem.read a := by
  by_contra hne
  have hlow : 80 ≤ a := ((step_mem h).2.2 a hne).1
  omega

/-! ## Bodies that move the pc or the stack -/

theorem exec_call_of_room (nnn : Addr12) {s : State} (h : s.sp.val < 16) :
    exec (.call nnn) s = .next { s with
      stack := s.stack.set s.sp.val s.fetchPc h, sp := ⟨s.sp.val + 1, by omega⟩, pc := zext12 nnn } :=
  dif_pos h

theorem exec_ret_of_frame {s : State} (h : 0 < s.sp.val) :
    exec .ret s = .next { s with
      sp := ⟨s.sp.val - 1, by omega⟩, pc := s.stack[s.sp.val - 1]'(by omega) + 2 } :=
  if_neg (by omega)

theorem exec_jpV0 (nnn : Addr12) (s : State) :
    exec (.jpV0 nnn) s = .next { s with pc := zext12 nnn + zext8 (s.reg 0#4) } := rfl

theorem exec_seReg (x y n : Nibble) (s : State) :
    exec (.seReg x y n) s = .next (s.skipIf (s.reg x == s.reg y)) := rfl

theorem exec_sneReg (x y n : Nibble) (s : State) :
    exec (.sneReg x y n) s = .next (s.skipIf (s.reg x != s.reg y)) := rfl

theorem exec_skp_of_key {x : Nibble} {s : State} (h : (s.reg x).toNat ≤ 15) :
    exec (.skp x) s = .next (s.skipIf (s.keyDown ((s.reg x).setWidth 4) == true)) :=
  if_neg (by omega)

theorem exec_sknp_of_key {x : Nibble} {s : State} (h : (s.reg x).toNat ≤ 15) :
    exec (.sknp x) s = .next (s.skipIf (s.keyDown ((s.reg x).setWidth 4) == false)) :=
  if_neg (by omega)

/-- The offset jump's sum stays in 16 bits (R113). -/
theorem jpV0_target_toNat (nnn : Addr12) (b : Byte) : (zext12 nnn + zext8 b).toNat = nnn.toNat + b.toNat := by
  have := nnn.isLt
  have := b.isLt
  rw [BitVec.toNat_add, zext12_toNat, zext8_toNat]
  omega

/-- The return address a RET computes from an entry of at most 4094 does not wrap (R110). -/
theorem return_toNat {w : Word} (h : w.toNat ≤ 4094) : (w + 2).toNat = w.toNat + 2 := by
  rw [BitVec.toNat_add, show (2 : Word).toNat = 2 from rfl]
  omega

theorem skipIf_pc_le {s : State} (h : AfterAdvance s) (b : Bool) : (s.skipIf b).pc.toNat ≤ 4098 := by
  have hpc : s.pc.toNat ≤ 4096 := h.2
  rw [skipIf_pc_toNat h]
  split <;> omega

theorem lt_of_bodyFault_call {nnn : Addr12} {s : State} (h : bodyFault (.call nnn) s = .none) : s.sp.val < 16 := by
  have hne : s.sp.val ≠ 16 := fun h16 => by simp [bodyFault, h16] at h
  omega

theorem pos_of_bodyFault_ret {s : State} (h : bodyFault .ret s = .none) : 0 < s.sp.val :=
  Nat.pos_of_ne_zero fun h0 => by simp [bodyFault, h0] at h

theorem le_of_bodyFault_skp {x : Nibble} {s : State} (h : bodyFault (.skp x) s = .none) : (s.reg x).toNat ≤ 15 :=
  Nat.le_of_not_lt fun h15 => by simp [bodyFault, h15] at h

/-- The largest pc a body that does not fault can leave is 0x10FE, the offset jump's (R27). -/
theorem exec_pc_le {i : Instr} {s t : State} (hadv : AfterAdvance s)
    (hret : ∀ j, (h : j < 16) → j < s.sp.val → s.stack[j].toNat ≤ 4094)
    (hb : bodyFault i s = .none) (h : exec i s = .next t) : t.pc.toNat ≤ 0x10FE := by
  have hpc : s.pc.toNat ≤ 4096 := hadv.2
  cases i with
  | jp nnn =>
    cases h
    have := nnn.isLt
    rw [zext12_toNat]
    omega
  | call nnn =>
    rw [exec_call_of_room nnn (lt_of_bodyFault_call hb)] at h
    cases h
    have := nnn.isLt
    rw [zext12_toNat]
    omega
  | jpV0 nnn =>
    cases h
    have := nnn.isLt
    have := (s.reg 0#4).isLt
    rw [jpV0_target_toNat]
    omega
  | ret =>
    have hsp := pos_of_bodyFault_ret hb
    have hentry := hret (s.sp.val - 1) (by omega) (by omega)
    rw [exec_ret_of_frame hsp] at h
    cases h
    rw [return_toNat hentry]
    omega
  | seImm | sneImm | seReg | sneReg =>
    cases h
    exact (skipIf_pc_le hadv _).trans (by omega)
  | skp x =>
    rw [exec_skp_of_key (le_of_bodyFault_skp hb)] at h
    cases h
    exact (skipIf_pc_le hadv _).trans (by omega)
  | sknp x =>
    rw [exec_sknp_of_key (le_of_bodyFault_skp hb)] at h
    cases h
    exact (skipIf_pc_le hadv _).trans (by omega)
  | _ =>
    have hkeep : t.pc = s.pc := body_frame hb h .pc (by simp [bodyChanges])
    rw [hkeep]
    omega

/-- A body that does not fault keeps every return address at most 4094: a CALL pushes its own fetch address, a RET
only drops an entry (R110, R112). -/
theorem exec_returns_le {i : Instr} {s t : State} (hadv : AfterAdvance s)
    (hret : ∀ j, (h : j < 16) → j < s.sp.val → s.stack[j].toNat ≤ 4094)
    (hb : bodyFault i s = .none) (h : exec i s = .next t) :
    ∀ j, (h : j < 16) → j < t.sp.val → t.stack[j].toNat ≤ 4094 := by
  cases i with
  | call nnn =>
    have hroom := lt_of_bodyFault_call hb
    rw [exec_call_of_room nnn hroom] at h
    cases h
    intro j hj hlt
    have hfetch := fetchPc_toNat hadv
    have hpc : s.pc.toNat ≤ 4096 := hadv.2
    by_cases hjsp : j = s.sp.val
    · subst hjsp
      simp only [Vector.getElem_set_self]
      omega
    · simp only [Vector.getElem_set_ne _ _ (Ne.symm hjsp)]
      exact hret j hj (by simp only at hlt; omega)
  | ret =>
    rw [exec_ret_of_frame (pos_of_bodyFault_ret hb)] at h
    cases h
    intro j hj hlt
    exact hret j hj (by simp only at hlt; omega)
  | _ =>
    have hstack : t.stack = s.stack := body_frame hb h .stack (by simp [bodyChanges])
    have hsp : t.sp = s.sp := body_frame hb h .sp (by simp [bodyChanges])
    rw [hstack, hsp]
    exact hret

end Sys2Proof.Machine
end

section
/-! SUPPORT. The parts of a cycle keep the invariant, one lemma each. -/

namespace Sys2Proof.Machine

/-- The invariant speaks of memory, the pc, the stack and the engine state: an update of anything else keeps it, and so
does one that closes LOAD. -/
theorem Inv.of_eq {s t : State} (hs : Inv s) (hmem : t.mem = s.mem) (hpc : t.pc = s.pc) (hstack : t.stack = s.stack)
    (hsp : t.sp = s.sp) (hmode : t.mode = s.mode) (hcode : t.faultCode = s.faultCode)
    (hfaultPc : t.faultPc = s.faultPc) (hload : t.loadOpen = true → s.loadOpen = true) : Inv t where
  memWf := hmem ▸ hs.memWf
  glyphsIntact := by rw [hmem]; exact hs.glyphsIntact
  pcBound := hpc ▸ hs.pcBound
  returnsBound := by rw [hstack, hsp]; exact hs.returnsBound
  faultNamed := by rw [hmode, hcode]; exact hs.faultNamed
  faultPcIsPc := by rw [hmode, hfaultPc, hpc]; exact hs.faultPcIsPc
  loadOnlyInRun := fun h => hmode.trans (hs.loadOnlyInRun (hload h))

theorem Inv.beginStep {s : State} (hs : Inv s) : Inv s.beginStep :=
  hs.of_eq rfl rfl rfl rfl rfl rfl rfl (by simp)

theorem Inv.endCycle {t : State} (ht : Inv t) : Inv t.endCycle :=
  ht.of_eq (by simp) (by simp) (by simp) (by simp) (by simp) (by simp) (by simp) (by simp)

/-- The advance keeps the invariant in RUN: the pc after it is at most 4096. -/
theorem Inv.afterFetch {s : State} (hs : Inv s) (hrun : s.mode = .run) (hpc : s.pc.toNat ≤ 4094) :
    Inv s.beginStep.afterFetch where
  memWf := hs.memWf
  glyphsIntact := hs.glyphsIntact
  pcBound := by
    have := pc_advance hpc
    simp only [State.afterFetch_pc, State.beginStep_pc]
    omega
  returnsBound := hs.returnsBound
  faultNamed := hs.faultNamed
  faultPcIsPc := by simp [hrun]
  loadOnlyInRun := by simp

/-- Taking a fault of the table at the fetch address keeps the invariant, from any state of the cycle that still has the
memory and the stack it began with and has LOAD closed. -/
theorem Inv.takeFault {s b : State} (hs : Inv s) {c : FaultCode} (hc : c ≠ .none) (hmem : b.mem = s.mem)
    (hstack : b.stack = s.stack) (hsp : b.sp = s.sp) (hload : b.loadOpen = false) :
    Inv (b.enterFault c s.pc) where
  memWf := by simp only [State.enterFault_mem, hmem]; exact hs.memWf
  glyphsIntact := by simp only [State.enterFault_mem, hmem]; exact hs.glyphsIntact
  pcBound := hs.pcBound
  returnsBound := by simp only [State.enterFault_stack, State.enterFault_sp, hstack, hsp]; exact hs.returnsBound
  faultNamed := by simp [hc]
  faultPcIsPc := by simp
  loadOnlyInRun := by simp [hload]

/-- A body that does not fault keeps the invariant. -/
theorem Inv.body {i : Instr} {s t : State} (hs : Inv s) (hadv : AfterAdvance s) (hrun : s.mode = .run)
    (hload : s.loadOpen = false) (hb : bodyFault i s = .none) (h : exec i s = .next t) (hmode : t.mode ≠ .fault) :
    Inv t := by
  obtain ⟨hglyphs, hwf, hread⟩ := exec_mem h
  have hframe := body_frame hb h
  have hcode : t.faultCode = s.faultCode := hframe .faultCode (by cases i <;> simp [bodyChanges])
  have hopen : t.loadOpen = s.loadOpen := hframe .loadOpen (by cases i <;> simp [bodyChanges])
  have hnone : s.faultCode = .none := by
    by_contra hne
    simp [hs.faultNamed.mpr hne] at hrun
  refine ⟨hwf hs.memWf, fun a ha => ?_, exec_pc_le hadv hs.returnsBound hb h,
    exec_returns_le hadv hs.returnsBound hb h, ?_, fun hf => absurd hf hmode, ?_⟩
  · have hkeep : t.mem.read a = s.mem.read a := by
      by_contra hne
      have hlow : 80 ≤ a := (hread a hne).1
      omega
    simp only [hkeep, hglyphs]
    exact hs.glyphsIntact a ha
  · rw [hcode, hnone]
    simp [hmode]
  · rw [hopen, hload]
    simp

end Sys2Proof.Machine
end

section
/-! The invariant (spec/10_state.md, spec/20_memory.md, spec/40_engine.md). -/

namespace Sys2Proof.Machine

/-- Settles O58: each part of a cycle keeps the invariant, and every STEP is its beginning, then nothing, a fault entry,
or a body and the end of the cycle. -/
theorem invariantKeptByStep : Obligations.InvariantKeptByStep := by
  unfold Obligations.InvariantKeptByStep
  intro s t hs hstep
  rcases hm : s.mode with _ | _ | _
  case run =>
    rcases step_run_cases hm with ⟨hcode, b, hb, h⟩ | ⟨-, i, u, hf, hbody, hexec, hmode, h⟩ <;>
      rw [h] at hstep <;> cases hstep
    · rcases hb with rfl | rfl
      · exact hs.takeFault hcode rfl rfl rfl rfl
      · exact hs.takeFault hcode rfl rfl rfl rfl
    · have hpc : s.pc.toNat ≤ 4094 := hf.2.1
      have hbody' : bodyFault i s.beginStep.afterFetch = .none := by rw [bodyFault_afterFetch, hbody]
      exact ((hs.afterFetch hm hpc).body (afterFetch_afterAdvance hpc) hm rfl hbody' hexec hmode).endCycle
  case waitKey =>
    rw [step_waitKey hm] at hstep
    cases hstep
    exact hs.beginStep
  case fault =>
    rw [step_fault hm] at hstep
    cases hstep
    exact hs.beginStep

/-- Before anything is written memory reads GLYPHS at 0..79 and 0 elsewhere (spec/10_state.md R38). -/
theorem resetWith_read (g : Vector Byte 80) (a : Nat) :
    (State.resetWith g).mem.read a = if h : a < 80 then g[a] else 0 := rfl

theorem resetWith_inv (g : Vector Byte 80) : Inv (State.resetWith g) where
  memWf := ⟨List.Pairwise.nil, by simp [State.resetWith]⟩
  glyphsIntact := fun a ha => by rw [resetWith_read, dif_pos ha]; rfl
  pcBound := by simp [State.resetWith]
  returnsBound := fun j _ hlt => absurd hlt (Nat.not_lt_zero j)
  faultNamed := by simp [State.resetWith]
  faultPcIsPc := by simp [State.resetWith]
  loadOnlyInRun := by simp [State.resetWith]

/-- Settles O57: nothing is listed in memory, no frame is on the stack and the mode is RUN, whatever GLYPHS is. -/
theorem invariantHoldsAtReset : Obligations.InvariantHoldsAtReset := by
  unfold Obligations.InvariantHoldsAtReset
  exact ⟨resetWith_inv _, resetWith_inv⟩

/-- RESET keeps only the count of draws, which the invariant does not mention. -/
theorem resetAgain_inv (s : State) : Inv s.resetAgain :=
  (resetWith_inv s.mem.glyphs).of_eq rfl rfl rfl rfl rfl rfl rfl id

/-- What LOAD answers when it is done or fails (spec/70_reset_and_hazards.md R201). -/
theorem hostLoad_cases {s t : State} {image : List Byte}
    (h : hostOp (.load image) s = .done t ∨ hostOp (.load image) s = .loadFailure t) :
    t = s ∨ (s.loadOpen = true ∧ t = { s with mem := loadBytes s.mem 512 image, loadOpen := false }) := by
  simp only [hostOp, hostLoad] at h
  split_ifs at h with hopen hlong
  · rcases h with h | h <;> cases h
    exact .inl rfl
  · rcases h with h | h <;> cases h
    exact .inr ⟨hopen, rfl⟩
  · rcases h with h | h <;> cases h

/-- The image starts at 512, past the glyph region. -/
theorem loadImage_inv {s : State} (hs : Inv s) (hrun : s.mode = .run) (image : List Byte) :
    Inv { s with mem := loadBytes s.mem 512 image, loadOpen := false } where
  memWf := loadBytes_wf hs.memWf _ _
  glyphsIntact := fun a ha => by
    simp only [loadBytes_outside s.mem 512 image (.inl (by omega : a < 512)), loadBytes_glyphs]
    exact hs.glyphsIntact a ha
  pcBound := hs.pcBound
  returnsBound := hs.returnsBound
  faultNamed := hs.faultNamed
  faultPcIsPc := hs.faultPcIsPc
  loadOnlyInRun := fun _ => hrun

theorem setKey_inv {s : State} (hs : Inv s) (k : Nibble) (b : Bool) : Inv (s.setKey k b) :=
  hs.of_eq rfl rfl rfl rfl rfl rfl rfl id

/-! ## What a key press does, by the mode (spec/60_exceptions.md R186) -/

theorem State.keyPress_of_waitKey {s : State} (h : s.mode = .waitKey) (k : Nibble) :
    s.keyPress k = { (s.setKey k true).setReg s.waitX (k.setWidth 8) with mode := .run } := by
  simp [State.keyPress, h]

theorem State.keyPress_of_not_waitKey {s : State} (h : s.mode ≠ .waitKey) (k : Nibble) :
    s.keyPress k = s.setKey k true := by
  unfold State.keyPress
  split
  · exact absurd ‹_› h
  · rfl
  · rfl

/-- A press that ends the wait leaves WAIT_KEY, where no fault is named, for RUN. -/
theorem keyPress_inv {s : State} (hs : Inv s) (k : Nibble) : Inv (s.keyPress k) := by
  by_cases h : s.mode = .waitKey
  · have hnone : ¬ s.faultCode ≠ .none := fun hne => by simp [hs.faultNamed.mpr hne] at h
    rw [State.keyPress_of_waitKey h]
    exact {
      memWf := hs.memWf
      glyphsIntact := hs.glyphsIntact
      pcBound := hs.pcBound
      returnsBound := hs.returnsBound
      faultNamed := iff_of_false (by simp) hnone
      faultPcIsPc := by simp
      loadOnlyInRun := fun _ => rfl }
  · rw [State.keyPress_of_not_waitKey h]
    exact setKey_inv hs k true

/-- Settles O59: RESET establishes the invariant, STEP keeps it, and each of the others is one update that keeps it. -/
theorem invariantKeptByHostOperations : Obligations.InvariantKeptByHostOperations := by
  unfold Obligations.InvariantKeptByHostOperations
  intro op s t hs h
  cases op with
  | reset =>
    rcases h with h | h <;> cases h
    exact resetAgain_inv s
  | load image =>
    rcases hostLoad_cases h with rfl | ⟨hopen, rfl⟩
    · exact hs
    · exact loadImage_inv hs (hs.loadOnlyInRun hopen) image
  | step => exact invariantKeptByStep s t hs (step_of_hostOp h)
  | keyPress k =>
    rcases h with h | h <;> cases h
    exact keyPress_inv hs k
  | keyRelease k =>
    rcases h with h | h <;> cases h
    exact setKey_inv hs k false
  | dirtyClear =>
    rcases h with h | h <;> cases h
    exact hs.of_eq rfl rfl rfl rfl rfl rfl rfl id

/-! ## Memory (spec/20_memory.md R55, R56) -/

/-- Settles O41: RESET keeps the parameter, a STEP and a LOAD write past 79 only, and the rest write no memory. -/
theorem glyphRegionIsConstant : Obligations.GlyphRegionIsConstant := by
  unfold Obligations.GlyphRegionIsConstant
  intro op s t h
  cases op with
  | reset =>
    rcases h with h | h <;> cases h
    exact ⟨rfl, fun hne => absurd rfl hne⟩
  | load image =>
    rcases hostLoad_cases h with rfl | ⟨-, rfl⟩
    · exact ⟨rfl, fun _ a _ => rfl⟩
    · exact ⟨loadBytes_glyphs _ _ _, fun _ a ha => loadBytes_outside _ _ _ (.inl (by omega))⟩
  | step =>
    have hstep := step_of_hostOp h
    exact ⟨(step_mem hstep).1, fun _ a ha => step_read_glyphs hstep ha⟩
  | keyPress k =>
    rcases h with h | h <;> cases h
    simp
  | keyRelease k =>
    rcases h with h | h <;> cases h
    exact ⟨rfl, fun _ a _ => rfl⟩
  | dirtyClear =>
    rcases h with h | h <;> cases h
    exact ⟨rfl, fun _ a _ => rfl⟩

/-- Settles O42: the byte is in the range of the store the STEP fetched. -/
theorem onlyStoresChangeMemory : Obligations.OnlyStoresChangeMemory := by
  unfold Obligations.OnlyStoresChangeMemory
  exact fun s t a hstep ha => (step_mem hstep).2.2 a ha

end Sys2Proof.Machine
end

section
/-! SUPPORT. A body that faults, and the STEPs that run a CALL and a RET (spec/41_flow.md R110, R112). -/

namespace Sys2Proof.Machine

/-- A body takes the fault the tables give it, as claims state a fault entry. -/
theorem exec_entersFault {i : Instr} {s : State} {c : FaultCode} (hadv : AfterAdvance s) (hb : bodyFault i s = c)
    (hc : c ≠ .none) : ∃ t, exec i s = .next t ∧ EntersFault c (s.pc.toNat - 2) s t := by
  rcases exec_cases i s with ⟨-, h⟩ | ⟨hnone, -⟩
  · rw [hb] at h
    exact ⟨_, h, raiseFault_entersFault hadv c⟩
  · exact absurd (hb.symm.trans hnone) hc

theorem bodyFault_call_of_room (nnn : Addr12) {s : State} (h : s.sp.val < 16) : bodyFault (.call nnn) s = .none :=
  if_neg (by omega)

theorem bodyFault_ret_of_frame {s : State} (h : 0 < s.sp.val) : bodyFault .ret s = .none :=
  if_neg (by omega)

/-- The word at the pc is read from memory and the pc alone. -/
theorem fetchedWord_congr {s t : State} (hmem : ∀ a, t.mem.read a = s.mem.read a) (hpc : t.pc = s.pc) :
    t.fetchedWord = s.fetchedWord := by
  rw [State.fetchedWord, State.fetchedWord, hpc, hmem, hmem]

/-- A STEP that runs a CALL with room ends in RUN at the target, with the CALL's own address on top of the stack. -/
theorem step_call {s : State} {nnn : Addr12} (h : Fetches s (.call nnn)) (hsp : s.sp.val < 16) :
    ∃ t, step s = .next t ∧ t.mode = .run ∧ t.mem = s.mem ∧ t.pc.toNat = nnn.toNat ∧ t.sp.val = s.sp.val + 1 ∧
      t.stack[s.sp.val] = s.pc := by
  obtain ⟨u, hexec, hstep⟩ := step_of_fetches h
  rw [exec_call_of_room (s := s.beginStep.afterFetch) nnn hsp] at hexec
  cases hexec
  refine ⟨_, hstep, ?_, ?_, ?_, ?_, ?_⟩
  · rw [State.endCycle_mode]
    exact h.1
  · rw [State.endCycle_mem]
    rfl
  · rw [State.endCycle_pc]
    exact zext12_toNat nnn
  · rw [State.endCycle_sp]
    rfl
  · simp

/-- A STEP that runs a RET with a frame pops it and resumes two past the entry. -/
theorem step_ret {s : State} (h : Fetches s .ret) (hsp : 0 < s.sp.val) :
    ∃ t, step s = .next t ∧ t.sp.val = s.sp.val - 1 ∧ t.pc = s.stack[s.sp.val - 1]'(by omega) + 2 := by
  obtain ⟨u, hexec, hstep⟩ := step_of_fetches h
  rw [exec_ret_of_frame (s := s.beginStep.afterFetch) hsp] at hexec
  cases hexec
  refine ⟨_, hstep, ?_, ?_⟩
  · rw [State.endCycle_sp]
    rfl
  · rw [State.endCycle_pc]
    rfl

end Sys2Proof.Machine
end

section
/-! Control transfer (spec/41_flow.md), and a run's end in a jump to itself (spec/70_reset_and_hazards.md R209). -/

namespace Sys2Proof.Machine

/-- Settles O17: the body writes the pc alone, and the 16-bit sum does not wrap. -/
theorem offsetJumpAddsV0 : Obligations.OffsetJumpAddsV0 := by
  unfold Obligations.OffsetJumpAddsV0
  refine ⟨decodeWord_groupB, fun nnn s => ?_⟩
  have hsum := jpV0_target_toNat nnn (s.reg 0#4)
  have := nnn.isLt
  have := (s.reg 0#4).isLt
  exact ⟨_, exec_jpV0 nnn s, hsum, hsum.trans_le (by omega), body_frame rfl (exec_jpV0 nnn s)⟩

/-- Settles O18: with room the body writes the one entry, and the pc it pushes is two below the advanced one. -/
theorem callPushesItsOwnAddress : Obligations.CallPushesItsOwnAddress := by
  unfold Obligations.CallPushesItsOwnAddress
  intro nnn s hadv hsp
  have hexec := exec_call_of_room nnn hsp
  refine ⟨_, hexec, zext12_toNat nnn, rfl, ?_, fun j hj hne => ?_, body_frame (bodyFault_call_of_room nnn hsp) hexec⟩
  · simp only [Vector.getElem_set_self]
    exact fetchPc_toNat hadv
  · exact Vector.getElem_set_ne hsp hj (Ne.symm hne)

/-- Settles O19: with a frame the body writes the pc and the stack pointer, and the entry's bound keeps the sum from
wrapping. -/
theorem returnPopsAndAddsTwo : Obligations.ReturnPopsAndAddsTwo := by
  unfold Obligations.ReturnPopsAndAddsTwo
  intro s hsp hentry
  have hexec := exec_ret_of_frame hsp
  exact ⟨_, hexec, rfl, return_toNat hentry, body_frame (bodyFault_ret_of_frame hsp) hexec⟩

/-- Settles O20: in each state the table gives the body that fault. -/
theorem stackAndKeyLimitsFault : Obligations.StackAndKeyLimitsFault := by
  unfold Obligations.StackAndKeyLimitsFault
  intro s hadv
  refine ⟨fun hfull nnn => ?_, fun hempty => ?_, fun x hkey => ?_⟩
  · exact exec_entersFault hadv (if_pos hfull) (by decide)
  · exact exec_entersFault hadv (if_pos hempty) (by decide)
  · obtain ⟨t, ht, htf⟩ := exec_entersFault (i := .skp x) hadv (if_pos hkey) (by decide)
    obtain ⟨u, hu, huf⟩ := exec_entersFault (i := .sknp x) hadv (if_pos hkey) (by decide)
    exact ⟨t, u, ht, htf, hu, huf⟩

/-- Settles O21: the CALL leaves its own address on top of the stack and memory as it was, so the RET at its target is
fetched and resumes two past that address. -/
theorem callThenReturnResumesAfterTheCall : Obligations.CallThenReturnResumesAfterTheCall := by
  unfold Obligations.CallThenReturnResumesAfterTheCall
  intro s nnn hf hsp htarget hret
  obtain ⟨t, hstep, hrun, hmem, hpc, hspt, htop⟩ := step_call hf hsp
  have hft : Fetches t .ret := ⟨hrun, by omega, by rw [hmem, hpc]; exact hret⟩
  obtain ⟨u, hstepu, hspu, hpcu⟩ := step_ret hft (by omega)
  refine ⟨t, u, hstep, hpc, hspt, hstepu, ?_, Fin.ext (by omega)⟩
  have hentry : t.stack[t.sp.val - 1]'(by omega) = s.pc := by
    simp only [hspt, Nat.add_sub_cancel, htop]
  rw [hpcu, hentry]
  exact pc_advance hf.2.1

/-- Settles O22: the jump puts the pc back, so of what a cycle changes only the timers and the outputs are left, and the
same word stands at the same pc. -/
theorem selfJumpOnlyTicks : Obligations.SelfJumpOnlyTicks := by
  unfold Obligations.SelfJumpOnlyTicks
  rintro s ⟨hrun, hpc, nnn, hword, htarget⟩
  have hf : Fetches s (.jp nnn) := ⟨hrun, hpc, hword⟩
  obtain ⟨u, hexec, hstep⟩ := step_of_fetches hf
  have hcycle := step_frame hf rfl hstep
  have hback : zext12 nnn = s.pc := BitVec.eq_of_toNat_eq ((zext12_toNat nnn).trans htarget)
  rw [exec_jp, hback] at hexec
  cases hexec
  have hpcSame := State.endCycle_pc { s.beginStep.afterFetch with pc := s.pc }
  have hframe := hcycle.restore (p := .pc) (qs := [.dt, .st, .outputs, .loadOpen]) hpcSame (by simp [bodyChanges])
  have hsameWord := fetchedWord_congr (hframe .mem (by simp)) hpcSame
  refine ⟨_, hstep, ⟨?_, ?_, nnn, ?_, ?_⟩, endCycle_dt_toNat hrun, endCycle_st_toNat hrun, hframe⟩
  · exact (State.endCycle_mode _).trans hrun
  · rw [hpcSame]
    exact hpc
  · rw [hsameWord, hword]
  · rw [hpcSame]
    exact htarget

end Sys2Proof.Machine
end

section
/-! Conditional skips (spec/42_skip.md). -/

namespace Sys2Proof.Machine

/-- Settles O24: each body is a skip on its own test of x[X] against x[Y], and N is read by neither. -/
theorem skipOnTwoRegisters : Obligations.SkipOnTwoRegisters := by
  unfold Obligations.SkipOnTwoRegisters
  intro x y n s hadv
  exact ⟨exec_skipOnEqual hadv (exec_seReg x y n s), exec_skipOnDifferent hadv (exec_sneReg x y n s)⟩

/-- The key a register names is its low nibble, which is all of it up to 15. -/
theorem setWidth_eq_of_toNat_eq {b : Byte} {k : Nibble} (h : b.toNat = k.toNat) : b.setWidth 4 = k := by
  apply BitVec.eq_of_toNat_eq
  have := k.isLt
  rw [BitVec.toNat_setWidth, h]
  omega

/-- Settles O25: a register of at most 15 raises no fault, and each body skips on its own level of that key. -/
theorem skipOnKeyLevel : Obligations.SkipOnKeyLevel := by
  unfold Obligations.SkipOnKeyLevel
  intro x k s hadv hk
  have hle : (s.reg x).toNat ≤ 15 := by
    have := k.isLt
    omega
  have hskp := exec_skp_of_key hle
  have hsknp := exec_sknp_of_key hle
  rw [setWidth_eq_of_toNat_eq hk] at hskp hsknp
  refine ⟨⟨_, hskp, ?_, skipIf_frame s _⟩, ⟨_, hsknp, ?_, skipIf_frame s _⟩⟩
  · rw [skipIf_pc_toNat hadv]
    cases s.keyDown k <;> rfl
  · rw [skipIf_pc_toNat hadv]
    cases s.keyDown k <;> rfl

end Sys2Proof.Machine
end

section
/-! SUPPORT. Bodies that write a result and then a flag (spec/43_alu.md R137 to R141), and the flags on numbers. -/

namespace Sys2Proof.Machine

theorem exec_addReg (x y : Nibble) (s : State) :
    exec (.addReg x y) s = .next (s.setRegFlag x (s.reg x + s.reg y) (carryFlag (s.reg x) (s.reg y))) := rfl

theorem exec_subReg (x y : Nibble) (s : State) :
    exec (.subReg x y) s = .next (s.setRegFlag x (s.reg x - s.reg y) (notBorrowFlag (s.reg x) (s.reg y))) := rfl

theorem exec_subnReg (x y : Nibble) (s : State) :
    exec (.subnReg x y) s = .next (s.setRegFlag x (s.reg y - s.reg x) (notBorrowFlag (s.reg y) (s.reg x))) := rfl

theorem exec_shr (x y : Nibble) (s : State) :
    exec (.shr x y) s = .next (s.setRegFlag x (s.reg x >>> 1) (shiftedOutRight (s.reg x))) := rfl

theorem exec_shl (x y : Nibble) (s : State) :
    exec (.shl x y) s = .next (s.setRegFlag x (s.reg x <<< 1) (shiftedOutLeft (s.reg x))) := rfl

theorem exec_rnd (x : Nibble) (kk : Byte) (s : State) :
    exec (.rnd x kk) s = .next { s.setReg x (Config.rnd s.draws &&& kk) with draws := s.draws + 1 } := rfl

/-- A body that writes a result and a flag, on numbers: the flag is written last, so it is what VF holds. -/
theorem exec_writesResultAndFlag {i : Instr} {s : State} {x : Nibble} {v f : Byte} {result flag : Nat}
    (hexec : exec i s = .next (s.setRegFlag x v f)) (hv : v.toNat = result) (hf : f.toNat = flag) :
    ∃ t, exec i s = .next t ∧
      (∀ r, (t.reg r).toNat = if r = 0xF#4 then flag else if r = x then result else (s.reg r).toNat) ∧
      SameExcept [.regs] s t := by
  refine ⟨_, hexec, fun r => ?_, setRegFlag_frame s x v f⟩
  rw [State.reg_setRegFlag, apply_ite BitVec.toNat, apply_ite BitVec.toNat, hv, hf]

theorem flagByte_toNat (p : Prop) [Decidable p] : (flagByte (decide p)).toNat = if p then 1 else 0 := by
  by_cases h : p <;> simp [flagByte, h]

theorem carryFlag_toNat (a b : Byte) : (carryFlag a b).toNat = if 255 < a.toNat + b.toNat then 1 else 0 :=
  flagByte_toNat _

theorem notBorrowFlag_toNat (a b : Byte) : (notBorrowFlag a b).toNat = if b.toNat ≤ a.toNat then 1 else 0 :=
  flagByte_toNat _

theorem shiftedOutRight_toNat (a : Byte) : (shiftedOutRight a).toNat = a.toNat % 2 := by
  rw [shiftedOutRight, BitVec.getLsbD, Nat.testBit_eq_decide_div_mod_eq, flagByte_toNat]
  split <;> omega

theorem shiftedOutLeft_toNat (a : Byte) : (shiftedOutLeft a).toNat = a.toNat / 128 := by
  have := a.isLt
  rw [shiftedOutLeft, BitVec.getLsbD, Nat.testBit_eq_decide_div_mod_eq, flagByte_toNat]
  split <;> omega

theorem sub_toNat (a b : Byte) : (a - b).toNat = (a.toNat + 256 - b.toNat) % 256 := by
  have := b.isLt
  rw [BitVec.toNat_sub]
  omega

theorem shiftRight_one_toNat (a : Byte) : (a >>> 1).toNat = a.toNat / 2 := by
  rw [BitVec.toNat_ushiftRight, Nat.shiftRight_eq_div_pow, pow_one]

theorem shiftLeft_one_toNat (a : Byte) : (a <<< 1).toNat = a.toNat * 2 % 256 := by
  rw [BitVec.toNat_shiftLeft, Nat.shiftLeft_eq, pow_one]

end Sys2Proof.Machine
end

section
/-! Register and arithmetic instructions with a flag, and the random byte (spec/43_alu.md). -/

namespace Sys2Proof.Machine

/-- Settles O29: the result is 8-bit addition, the flag the sum's excess over 255. -/
theorem addRegistersWithCarry : Obligations.AddRegistersWithCarry := by
  unfold Obligations.AddRegistersWithCarry
  exact fun x y s => exec_writesResultAndFlag (exec_addReg x y s) (BitVec.toNat_add _ _) (carryFlag_toNat _ _)

/-- Settles O30: the flag is the comparison of the operands; SUBN is SUB with the operands exchanged. -/
theorem subtractWithNotBorrow : Obligations.SubtractWithNotBorrow := by
  unfold Obligations.SubtractWithNotBorrow
  intro x y s
  exact ⟨exec_writesResultAndFlag (exec_subReg x y s) (sub_toNat _ _) (notBorrowFlag_toNat _ _),
    exec_writesResultAndFlag (exec_subnReg x y s) (sub_toNat _ _) (notBorrowFlag_toNat _ _)⟩

/-- Settles O31: on numbers a right shift halves and loses the parity, a left shift doubles and loses the top bit. -/
theorem shiftByOne : Obligations.ShiftByOne := by
  unfold Obligations.ShiftByOne
  intro x y s
  exact ⟨exec_writesResultAndFlag (exec_shr x y s) (shiftRight_one_toNat _) (shiftedOutRight_toNat _),
    exec_writesResultAndFlag (exec_shl x y s) (shiftLeft_one_toNat _) (shiftedOutLeft_toNat _)⟩

/-- Settles O32: the body is one register write, then the count of draws, which no register read sees. -/
theorem randomByteIsMasked : Obligations.RandomByteIsMasked := by
  unfold Obligations.RandomByteIsMasked
  intro x kk s
  refine ⟨_, exec_rnd x kk s, fun r hr => State.reg_setReg_of_ne s _ hr, fun b _ => ?_, rfl,
    body_frame rfl (exec_rnd x kk s)⟩
  have hx := State.reg_setReg_self s x (Config.rnd s.draws &&& kk)
  exact (congrArg (BitVec.getLsbD · b) hx).trans BitVec.getLsbD_and

end Sys2Proof.Machine
end

section
/-! SUPPORT. The memory transfers and the draw where the tables give them no fault: the range on numbers, and the body
they then are (spec/20_memory.md R57, spec/44_index_memory.md R153 to R155, spec/45_display.md R161). -/

namespace Sys2Proof.Machine

theorem checkedRead_of_le {s : State} {n : Nat} (h : s.i.toNat + n ≤ 4096 ∨ n = 0) (body : State) :
    checkedRead s n body = .next body := by
  rcases checkedRead_cases s n body with ⟨hpos, hout, -⟩ | ⟨-, hnext⟩
  · omega
  · exact hnext

theorem checkedWrite_of_le {s : State} {n : Nat} (hlow : 80 ≤ s.i.toNat) (hhigh : s.i.toNat + n ≤ 4095)
    (body : State) : checkedWrite s (n + 1) body = .next body := by
  rcases checkedWrite_cases s (Nat.succ_pos n) body with ⟨hout, -⟩ | ⟨-, hglyph, -⟩ | ⟨-, -, hnext⟩
  · omega
  · omega
  · exact hnext

/-- Memory after the three digits of a byte are written at `a` (R153). -/
def storeDigits (m : Memory) (a : Nat) (v : Byte) : Memory :=
  ((m.write a (bcdHundreds v)).write (a + 1) (bcdTens v)).write (a + 2) (bcdOnes v)

theorem exec_ldB_of_le {s : State} (x : Nibble) (hlow : 80 ≤ s.i.toNat) (hhigh : s.i.toNat + 2 ≤ 4095) :
    exec (.ldB x) s = .next { s with mem := storeDigits s.mem s.i.toNat (s.reg x) } :=
  checkedWrite_of_le hlow hhigh _

theorem exec_store_of_le {s : State} {x : Nibble} (hlow : 80 ≤ s.i.toNat) (hhigh : s.i.toNat + x.toNat ≤ 4095) :
    exec (.store x) s = .next { s with mem := storeRegs s (x.toNat + 1) } :=
  checkedWrite_of_le hlow hhigh _

theorem exec_load_of_le {s : State} {x : Nibble} (h : s.i.toNat + x.toNat ≤ 4095) :
    exec (.load x) s = .next (loadRegs s (x.toNat + 1)) :=
  checkedRead_of_le (.inl (by omega)) _

/-- The drawing a DRW makes: the sprite of height N at I, at the origin the two registers give. -/
def drawing (x y n : Nibble) (s : State) : Drawing := drawRows s (s.reg x).toNat (s.reg y).toNat n.toNat

theorem exec_drw_of_le {s : State} (x y : Nibble) {n : Nibble} (h : s.i.toNat + n.toNat ≤ 4096 ∨ n.toNat = 0) :
    exec (.drw x y n) s = .next ({ s with fb := (drawing x y n s).frame, dirty := true }.setReg 0xF#4
      (flagByte (drawing x y n s).collision)) :=
  checkedRead_of_le h _

/-! ## When the tables give no fault -/

theorem bodyFault_drw_iff {x y n : Nibble} {s : State} :
    bodyFault (.drw x y n) s = .none ↔ (s.i.toNat + n.toNat ≤ 4096 ∨ n.toNat = 0) := by
  rw [bodyFault]
  split
  · exact iff_of_false (by simp) (by omega)
  · exact iff_of_true rfl (by omega)

theorem bodyFault_ldB_iff {x : Nibble} {s : State} :
    bodyFault (.ldB x) s = .none ↔ (80 ≤ s.i.toNat ∧ s.i.toNat + 2 ≤ 4095) := by
  rw [bodyFault]
  split_ifs
  · exact iff_of_false (by simp) (by omega)
  · exact iff_of_false (by simp) (by omega)
  · exact iff_of_true rfl (by omega)

theorem bodyFault_store_iff {x : Nibble} {s : State} :
    bodyFault (.store x) s = .none ↔ (80 ≤ s.i.toNat ∧ s.i.toNat + x.toNat ≤ 4095) := by
  rw [bodyFault]
  split_ifs
  · exact iff_of_false (by simp) (by omega)
  · exact iff_of_false (by simp) (by omega)
  · exact iff_of_true rfl (by omega)

theorem bodyFault_load_iff {x : Nibble} {s : State} :
    bodyFault (.load x) s = .none ↔ s.i.toNat + x.toNat ≤ 4095 := by
  rw [bodyFault]
  split
  · exact iff_of_false (by simp) (by omega)
  · exact iff_of_true rfl (by omega)

/-! ## What the transfers leave in memory -/

theorem bcdHundreds_toNat (v : Byte) : (bcdHundreds v).toNat = v.toNat / 100 := by
  have := v.isLt
  rw [bcdHundreds, BitVec.toNat_ofNat]
  omega

theorem bcdTens_toNat (v : Byte) : (bcdTens v).toNat = v.toNat / 10 % 10 := by
  rw [bcdTens, BitVec.toNat_ofNat]
  omega

theorem bcdOnes_toNat (v : Byte) : (bcdOnes v).toNat = v.toNat % 10 := by
  rw [bcdOnes, BitVec.toNat_ofNat]
  omega

theorem storeDigits_read_outside (m : Memory) (v : Byte) {a b : Nat} (h : b < a ∨ a + 2 < b) :
    (storeDigits m a v).read b = m.read b := by
  rw [storeDigits, Memory.read_write_of_ne _ _ (by omega), Memory.read_write_of_ne _ _ (by omega),
    Memory.read_write_of_ne _ _ (by omega)]

theorem storeDigits_read {m : Memory} (hw : m.wf) {a : Nat} (h : a + 2 ≤ 4095) (v : Byte) :
    (storeDigits m a v).read a = bcdHundreds v ∧ (storeDigits m a v).read (a + 1) = bcdTens v ∧
      (storeDigits m a v).read (a + 2) = bcdOnes v := by
  have hw₁ := Memory.wf_write hw a (bcdHundreds v)
  have hw₂ := Memory.wf_write hw₁ (a + 1) (bcdTens v)
  unfold storeDigits
  refine ⟨?_, ?_, ?_⟩
  · rw [Memory.read_write_of_ne _ _ (by omega), Memory.read_write_of_ne _ _ (by omega),
      Memory.read_write_self hw _ (by omega)]
  · rw [Memory.read_write_of_ne _ _ (by omega), Memory.read_write_self hw₁ _ (by omega)]
  · exact Memory.read_write_self hw₂ _ h

/-- The byte a store of x[0]..x[X] leaves for register `k`. -/
theorem storeRegs_read_reg {s : State} (hw : s.mem.wf) {x k : Nibble} (hk : k.toNat ≤ x.toNat)
    (h : s.i.toNat + x.toNat ≤ 4095) : (storeRegs s (x.toNat + 1)).read (s.i.toNat + k.toNat) = s.reg k := by
  rw [storeRegs_read_inside hw (by omega) (by omega), BitVec.ofNat_toNat, BitVec.setWidth_eq]

/-- What a load of x[0]..x[X] leaves in each register. -/
theorem loadRegs_reg_le (s : State) (x r : Nibble) :
    (loadRegs s (x.toNat + 1)).reg r = if r.toNat ≤ x.toNat then s.mem.read (s.i.toNat + r.toNat) else s.reg r := by
  have := x.isLt
  rw [loadRegs_reg s (by omega)]
  simp only [Nat.lt_succ_iff]

end Sys2Proof.Machine
end

section
/-! The table of register writers (spec/10_state.md R23). -/

namespace Sys2Proof.Machine

/-- A body that does not fault leaves every register the table does not give it. -/
theorem body_reg_of_not_writesReg {i : Instr} {s t : State} {r : Nibble} (hb : bodyFault i s = .none)
    (h : exec i s = .next t) (hr : writesReg i r = false) : t.reg r = s.reg r := by
  cases i with
  | ldImm x | addImm x | ldReg x | orReg x | andReg x | xorReg x | ldDT x | rnd x =>
    cases h
    exact State.reg_setReg_of_ne s _ (beq_eq_false_iff_ne.mp hr)
  | addReg x | subReg x | shr x | subnReg x | shl x =>
    cases h
    have hne : r ≠ x ∧ r ≠ 0xF#4 := by simpa [writesReg] using hr
    rw [State.reg_setRegFlag, if_neg hne.2, if_neg hne.1]
  | drw x y n =>
    rw [exec_drw_of_le x y (bodyFault_drw_iff.mp hb)] at h
    cases h
    exact State.reg_setReg_of_ne _ _ (beq_eq_false_iff_ne.mp hr)
  | load x =>
    rw [exec_load_of_le (bodyFault_load_iff.mp hb)] at h
    cases h
    rw [loadRegs_reg_le, if_neg (of_decide_eq_false hr)]
  | _ => exact body_frame hb h .regs (by simp [bodyChanges]) r

/-- A key press writes a register exactly when it ends a wait (spec/60_exceptions.md R186). -/
theorem State.reg_keyPress (s : State) (k r : Nibble) :
    (s.keyPress k).reg r = if s.mode = .waitKey ∧ r = s.waitX then k.setWidth 8 else s.reg r := by
  by_cases hm : s.mode = .waitKey
  · rw [State.keyPress_of_waitKey hm]
    simp only [hm, true_and]
    exact State.reg_setReg (s.setKey k true) s.waitX r (k.setWidth 8)
  · rw [State.keyPress_of_not_waitKey hm, if_neg fun h => hm h.1, State.reg_setKey]

/-- Settles O33: a fault writes no register and a body only those of the table; of the key events only the press that
ends a wait writes one. -/
theorem registerWritersAsTabled : Obligations.RegisterWritersAsTabled := by
  unfold Obligations.RegisterWritersAsTabled
  refine ⟨fun i s t r h hr => ?_, fun s k r => ⟨s.reg_keyPress k r, rfl⟩⟩
  rcases exec_cases i s with ⟨-, hfault⟩ | ⟨hb, -⟩
  · rw [hfault] at h
    cases h
    rfl
  · exact body_reg_of_not_writesReg hb h hr

end Sys2Proof.Machine
end

section
/-! Index register and memory transfers (spec/44_index_memory.md, spec/20_memory.md). -/

namespace Sys2Proof.Machine

theorem exec_addI (x : Nibble) (s : State) : exec (.addI x) s = .next { s with i := s.i + zext8 (s.reg x) } := rfl

theorem exec_ldF (x : Nibble) (s : State) : exec (.ldF x) s = .next { s with i := zext8 (s.reg x) * 5 } := rfl

/-- Five times a byte stays in 16 bits (R152). -/
theorem glyphAddress_toNat (b : Byte) : (zext8 b * 5).toNat = b.toNat * 5 := by
  have := b.isLt
  rw [BitVec.toNat_mul, zext8_toNat, show (5 : Word).toNat = 5 from rfl]
  omega

/-- Settles O35: both bodies write I alone, one by a 16-bit sum and one by a product that does not wrap. -/
theorem indexArithmetic : Obligations.IndexArithmetic := by
  unfold Obligations.IndexArithmetic
  refine fun x s => ⟨⟨_, exec_addI x s, ?_, body_frame rfl (exec_addI x s)⟩,
    ⟨_, exec_ldF x s, glyphAddress_toNat _, body_frame rfl (exec_ldF x s)⟩⟩
  rw [BitVec.toNat_add, zext8_toNat]

/-- Settles O36: the three writes are at different addresses, so each digit is read back and nothing else moves. -/
theorem storeDecimalDigits : Obligations.StoreDecimalDigits := by
  unfold Obligations.StoreDecimalDigits
  intro x s hw hlow hhigh
  have hexec := exec_ldB_of_le x hlow hhigh
  obtain ⟨hundreds, tens, ones⟩ := storeDigits_read hw hhigh (s.reg x)
  refine ⟨_, hexec, ?_, ?_, ?_, fun a ha => storeDigits_read_outside _ _ ha,
    body_frame (bodyFault_ldB_iff.mpr ⟨hlow, hhigh⟩) hexec⟩
  · rw [hundreds, bcdHundreds_toNat]
  · rw [tens, bcdTens_toNat]
  · rw [ones, bcdOnes_toNat]

/-- Settles O37: in its range the body is the store, whose bytes are read back and which touches no others. -/
theorem storeRegisters : Obligations.StoreRegisters := by
  unfold Obligations.StoreRegisters
  intro x s hw hlow hhigh
  have hexec := exec_store_of_le hlow hhigh
  exact ⟨_, hexec, fun k hk => storeRegs_read_reg hw hk hhigh,
    fun a ha => storeRegs_read_outside _ _ _ (by omega),
    body_frame (bodyFault_store_iff.mpr ⟨hlow, hhigh⟩) hexec⟩

/-- Settles O38: below 4096 the body is the load, which writes the first X + 1 registers and nothing else. -/
theorem loadRegisters : Obligations.LoadRegisters := by
  unfold Obligations.LoadRegisters
  intro x s h
  exact ⟨_, exec_load_of_le h, loadRegs_reg_le s x, loadRegs_frame s _⟩

/-- Settles O39: in each range the table gives the body that fault; an I of at most 79 keeps both stores below 4095, so
the glyph region's is the first. -/
theorem memoryRangeFaults : Obligations.MemoryRangeFaults := by
  unfold Obligations.MemoryRangeFaults
  intro x y n s hadv
  refine ⟨fun hn hout => ?_, fun hout => ?_, fun hout => ?_, fun hout => ?_, fun hglyph => ?_⟩
  · exact exec_entersFault hadv (if_pos ⟨hn, by omega⟩) (by decide)
  · exact exec_entersFault hadv (if_pos hout) (by decide)
  · exact exec_entersFault hadv (if_pos hout) (by decide)
  · exact exec_entersFault hadv (if_pos hout) (by decide)
  · have := x.isLt
    have hdigits : bodyFault (.ldB x) s = .glyphRegionWrite := by
      rw [bodyFault, if_neg (by omega), if_pos hglyph]
    have hstore : bodyFault (.store x) s = .glyphRegionWrite := by
      rw [bodyFault, if_neg (by omega), if_pos hglyph]
    obtain ⟨t, ht, htf⟩ := exec_entersFault hadv hdigits (by decide)
    obtain ⟨u, hu, huf⟩ := exec_entersFault hadv hstore (by decide)
    exact ⟨t, u, ht, htf, hu, huf⟩

/-- Settles O40: the load reads at I the bytes the store left there, register by register. -/
theorem storeThenLoadRestoresRegisters : Obligations.StoreThenLoadRestoresRegisters := by
  unfold Obligations.StoreThenLoadRestoresRegisters
  intro x s t t' hw hlow hhigh hexec hmem hi
  rw [exec_store_of_le hlow hhigh] at hexec
  cases hexec
  have hload : exec (.load x) t' = .next (loadRegs t' (x.toNat + 1)) := exec_load_of_le (by rwa [hi])
  refine ⟨_, hload, fun r hr => ?_⟩
  rw [loadRegs_reg_le, if_pos hr, hmem, hi]
  exact storeRegs_read_reg hw hr hhigh

/-- A STEP that runs a store in its range ends in RUN after it, with the registers in memory. -/
theorem step_store {s : State} {x : Nibble} (h : Fetches s (.store x)) (hw : s.mem.wf) (hlow : 80 ≤ s.i.toNat)
    (hhigh : s.i.toNat + x.toNat ≤ 4095) :
    ∃ t, step s = .next t ∧ t.mode = .run ∧ t.pc.toNat = s.pc.toNat + 2 ∧
      ∀ k : Nibble, k.toNat ≤ x.toNat → t.mem.read (s.i.toNat + k.toNat) = s.reg k := by
  obtain ⟨u, hexec, hstep⟩ := step_of_fetches h
  rw [exec_store_of_le (s := s.beginStep.afterFetch) hlow hhigh] at hexec
  cases hexec
  refine ⟨_, hstep, ?_, ?_, fun k hk => ?_⟩
  · rw [State.endCycle_mode]
    exact h.1
  · rw [State.endCycle_pc]
    exact pc_advance h.2.1
  · rw [State.endCycle_mem]
    exact storeRegs_read_reg (s := s.beginStep.afterFetch) hw hk hhigh

/-- Settles O43: the STEP leaves the pc at I with x[0] and x[1] there, so the diagnostics of the next STEP show them. -/
theorem writtenCodeIsFetchedNext : Obligations.WrittenCodeIsFetchedNext := by
  unfold Obligations.WrittenCodeIsFetchedNext
  intro s x hf hw hx hnext hlow hhigh
  obtain ⟨t, hstep, hrun, hpc, hread⟩ := step_store hf hw hlow hhigh
  obtain ⟨u, hstepu, hvalid, hdiagPc, hword⟩ := diagnosticsOfEveryFetchedCycle t hrun (by omega)
  refine ⟨t, u, hstep, hstepu, hvalid, by rw [hdiagPc, hpc], ?_⟩
  rw [hword, hpc, ← hnext]
  exact congrArg₂ (· ++ ·) (hread 0#4 (Nat.zero_le _)) (hread 1#4 hx)

end Sys2Proof.Machine
end

section
/-! SUPPORT. The draw and the screen (spec/45_display.md R160 to R162). -/

namespace Sys2Proof.Machine

theorem exec_cls (s : State) : exec .cls s = .next { s with fb := frameClear, dirty := true } := rfl

theorem drawing_pixel (x y n : Nibble) (s : State) {cx cy : Nat} (hx : cx < 64) (hy : cy < 32) :
    framePixel (drawing x y n s).frame cx cy =
      (framePixel s.fb cx cy ^^ spriteCovers s (s.reg x).toNat (s.reg y).toNat n.toNat cx cy) := by
  rw [drawing, drawRows_pixel, decide_eq_true ⟨hx, hy⟩, Bool.true_and]

theorem drawing_collision_iff (x y n : Nibble) (s : State) :
    (drawing x y n s).collision = true ↔ ∃ cx cy, cx < 64 ∧ cy < 32 ∧ framePixel s.fb cx cy = true ∧
      spriteCovers s (s.reg x).toNat (s.reg y).toNat n.toNat cx cy = true := by
  rw [drawing, drawRows_collision]
  simp only [and_comm]

theorem flagByte_eq_zero_or_one (b : Bool) : flagByte b = 0 ∨ flagByte b = 1 := by
  cases b
  · exact .inl rfl
  · exact .inr rfl

theorem flagByte_eq_one_iff (b : Bool) : flagByte b = 1 ↔ b = true := by
  cases b <;> decide

/-- What a sprite covers is a matter of memory and I. -/
theorem spriteCovers_congr {s t : State} (hmem : ∀ a, t.mem.read a = s.mem.read a) (hi : t.i = s.i)
    (ox oy n cx cy : Nat) : spriteCovers t ox oy n cx cy = spriteCovers s ox oy n cx cy := by
  rw [spriteCovers, spriteCovers, hmem, hi]

/-- The two instructions the rules of spec/45_display.md give the screen to. -/
def drawsScreen (i : Instr) : Prop := i = .cls ∨ ∃ x y n, i = .drw x y n

theorem not_drawsScreen_parts {i : Instr} (h : ¬ drawsScreen i) :
    Part.fb ∉ bodyChanges i ∧ Part.dirty ∉ bodyChanges i := by
  cases i with
  | cls => exact absurd (.inl rfl) h
  | drw x y n => exact absurd (.inr ⟨x, y, n, rfl⟩) h
  | _ => simp [bodyChanges]

theorem dirty_of_drawsScreen {i : Instr} {s t : State} (hd : drawsScreen i) (hb : bodyFault i s = .none)
    (h : exec i s = .next t) : t.dirty = true := by
  rcases hd with rfl | ⟨x, y, n, rfl⟩
  · cases h
    rfl
  · rw [exec_drw_of_le x y (bodyFault_drw_iff.mp hb)] at h
    cases h
    rfl

/-- A STEP leaves the screen and `dirty` alone, or it is a CLS or a DRW without a fault, which sets `dirty`. -/
theorem step_screen {s t : State} (h : step s = .next t) :
    (t.fb = s.fb ∧ t.dirty = s.dirty ∧ (t.mode = .fault ∨ ∀ i, Fetches s i → ¬ drawsScreen i)) ∨
    (t.dirty = true ∧ t.mode ≠ .fault ∧ ∃ i, Fetches s i ∧ drawsScreen i) := by
  rcases hm : s.mode with _ | _ | _
  case run =>
    rcases step_run_cases hm with ⟨-, b, hb, hs⟩ | ⟨-, i, u, hf, hbody, hexec, hmode, hs⟩ <;> rw [hs] at h <;> cases h
    · refine .inl ⟨?_, ?_, .inl rfl⟩
      · rcases hb with rfl | rfl <;> rfl
      · rcases hb with rfl | rfl <;> rfl
    · have hbody' : bodyFault i s.beginStep.afterFetch = .none := by rw [bodyFault_afterFetch, hbody]
      rw [State.endCycle_fb, State.endCycle_dirty, State.endCycle_mode]
      by_cases hd : drawsScreen i
      · exact .inr ⟨dirty_of_drawsScreen hd hbody' hexec, hmode, i, hf, hd⟩
      · obtain ⟨hfb, hdirty⟩ := not_drawsScreen_parts hd
        have hframe := body_frame hbody' hexec
        exact .inl ⟨hframe .fb hfb, hframe .dirty hdirty, .inr fun j hj => hj.unique hf ▸ hd⟩
  case waitKey =>
    rw [step_waitKey hm] at h
    cases h
    exact .inl ⟨rfl, rfl, .inr fun i hf => absurd hf.1 (by simp [hm])⟩
  case fault =>
    rw [step_fault hm] at h
    cases h
    exact .inl ⟨rfl, rfl, .inl hm⟩

theorem exists_fetches_drawsScreen_iff {s : State} :
    (∃ i, Fetches s i ∧ drawsScreen i) ↔ (Fetches s .cls ∨ ∃ x y n, Fetches s (.drw x y n)) := by
  constructor
  · rintro ⟨i, hf, rfl | ⟨x, y, n, rfl⟩⟩
    · exact .inl hf
    · exact .inr ⟨x, y, n, hf⟩
  · rintro (hf | ⟨x, y, n, hf⟩)
    · exact ⟨_, hf, .inl rfl⟩
    · exact ⟨_, hf, .inr ⟨x, y, n, rfl⟩⟩

end Sys2Proof.Machine
end

section
/-! Framebuffer (spec/45_display.md). -/

namespace Sys2Proof.Machine

/-- Settles O44: a word is the encoding of what it decodes to, so only CLS's own word decodes to CLS. -/
theorem clearScreen : Obligations.ClearScreen := by
  unfold Obligations.ClearScreen
  refine ⟨fun w => ⟨fun h => ?_, fun h => h ▸ rfl⟩, fun s => ?_⟩
  · rw [← encode_decodeWord w, h]
    rfl
  · exact ⟨_, exec_cls s, fun cx cy _ _ => framePixel_clear cx cy, rfl, body_frame rfl (exec_cls s)⟩

/-- Settles O45: in its range, or with no row to read, the body is the drawing, then the flag of its collision. -/
theorem drawTogglesTheSpritesCells : Obligations.DrawTogglesTheSpritesCells := by
  unfold Obligations.DrawTogglesTheSpritesCells
  intro x y n s hrange
  have hle : s.i.toNat + n.toNat ≤ 4096 ∨ n.toNat = 0 := hrange.imp_right fun hn => by rw [hn]; rfl
  have hexec := exec_drw_of_le x y hle
  refine ⟨_, hexec, rfl, fun cx cy hx hy => drawing_pixel x y n s hx hy, ?_, ?_, fun r hr => ?_,
    body_frame (bodyFault_drw_iff.mpr hle) hexec⟩
  · rw [State.reg_setReg_self]
    exact flagByte_eq_zero_or_one _
  · rw [State.reg_setReg_self, flagByte_eq_one_iff]
    exact drawing_collision_iff x y n s
  · exact State.reg_setReg_of_ne _ _ hr

/-- Settles O46: both draws toggle the same cells, so the second undoes the first, and the cells it finds lit among them
are those the first lit. -/
theorem drawingTwiceRestoresTheFrame : Obligations.DrawingTwiceRestoresTheFrame := by
  unfold Obligations.DrawingTwiceRestoresTheFrame
  intro x y n s t hrange hexec hx hy
  obtain ⟨t', hexec', -, hpixel, -, -, -, hframe⟩ := drawTogglesTheSpritesCells x y n s hrange
  rw [hexec'] at hexec
  cases hexec
  have hi : t.i = s.i := hframe .index (by simp)
  obtain ⟨u, hexecu, -, hpixelu, -, hflag, -, -⟩ := drawTogglesTheSpritesCells x y n t (by rwa [hi])
  simp only [hx, hy, spriteCovers_congr (hframe .mem (by simp)) hi] at hpixelu hflag
  refine ⟨u, hexecu, fun cx cy hcx hcy => ?_, hflag.trans ?_⟩
  · rw [hpixelu cx cy hcx hcy, hpixel cx cy hcx hcy, Bool.xor_assoc, Bool.xor_self, Bool.xor_false]
  · refine exists_congr fun cx => exists_congr fun cy => and_congr_right fun hcx => and_congr_right fun hcy => ?_
    rw [hpixel cx cy hcx hcy]
    cases framePixel s.fb cx cy <;> simp

/-- Settles O47: a STEP either keeps both and draws nothing it completes, or draws and sets `dirty`. -/
theorem onlyClsAndDrwTouchTheScreen : Obligations.OnlyClsAndDrwTouchTheScreen := by
  unfold Obligations.OnlyClsAndDrwTouchTheScreen
  intro s t hstep
  simp only [← exists_fetches_drawsScreen_iff]
  rcases step_screen hstep with ⟨hfb, hdirty, hno⟩ | ⟨hdirty, hmode, hdraws⟩
  · refine ⟨fun hchanged => ?_, fun ⟨i, hf, hd⟩ hmode => ?_⟩
    · exact hchanged.elim (absurd hfb) (absurd hdirty)
    · exact absurd hd (hno.resolve_left hmode i hf)
  · exact ⟨fun _ => ⟨hdirty, hmode, hdraws⟩, fun _ _ => hdirty⟩

end Sys2Proof.Machine
end

section
/-! Timers and keys (spec/46_timers_keys.md). -/

namespace Sys2Proof.Machine

theorem exec_ldKey (x : Nibble) (s : State) :
    exec (.ldKey x) s = .next { s with mode := .waitKey, waitX := x } := rfl

theorem exec_setDT (x : Nibble) (s : State) : exec (.setDT x) s = .next { s with dt := s.reg x } := rfl

theorem exec_setST (x : Nibble) (s : State) : exec (.setST x) s = .next { s with st := s.reg x } := rfl

/-- Settles O49: the body leaves RUN, so its cycle ends without a tick. -/
theorem keyWaitIsEntered : Obligations.KeyWaitIsEntered := by
  unfold Obligations.KeyWaitIsEntered
  refine ⟨fun x s => ⟨_, exec_ldKey x s, rfl, rfl, body_frame rfl (exec_ldKey x s)⟩, fun x s hf => ?_⟩
  obtain ⟨u, hexec, hstep⟩ := step_of_fetches hf
  have hframe := (afterFetch_frame s).trans (body_frame rfl hexec)
  rw [exec_ldKey] at hexec
  cases hexec
  rw [endCycle_not_run (by simp)] at hstep
  exact ⟨_, hstep, rfl, rfl, pc_advance hf.2.1, rfl, hframe.mono (by simp [bodyChanges])⟩

/-- Settles O50: the body stays in RUN, so the tick takes the timer it set one lower, and the sound is of the ST it
leaves. -/
theorem setTimers : Obligations.SetTimers := by
  unfold Obligations.SetTimers
  refine ⟨fun x s => ⟨?_, ?_⟩, fun x s => ⟨fun hf => ?_, fun hf => ?_⟩⟩
  · exact ⟨_, exec_setDT x s, rfl, body_frame rfl (exec_setDT x s)⟩
  · exact ⟨_, exec_setST x s, rfl, body_frame rfl (exec_setST x s)⟩
  · have hrun : s.mode = .run := hf.1
    obtain ⟨u, hexec, hstep⟩ := step_of_fetches hf
    rw [exec_setDT] at hexec
    cases hexec
    exact ⟨_, hstep, endCycle_dt_toNat hrun, endCycle_st_toNat hrun, endCycle_soundEvent_iff hrun rfl⟩
  · have hrun : s.mode = .run := hf.1
    obtain ⟨u, hexec, hstep⟩ := step_of_fetches hf
    rw [exec_setST] at hexec
    cases hexec
    exact ⟨_, hstep, endCycle_st_toNat hrun, endCycle_dt_toNat hrun, endCycle_soundEvent_iff hrun rfl⟩

end Sys2Proof.Machine
end

section
/-! SUPPORT. The frames of the host's operations, and the place of LOAD (spec/60_exceptions.md R186, R187,
spec/70_reset_and_hazards.md R204). -/

namespace Sys2Proof.Machine

theorem setKey_frame (s : State) (k : Nibble) (b : Bool) : SameExcept [.keys] s (s.setKey k b) := by
  intro p hp
  cases p <;> simp_all [Part.same]

theorem dirtyClear_frame (s : State) : SameExcept [.dirty] s s.dirtyClear := by
  intro p hp
  cases p <;> simp_all [Part.same, State.dirtyClear, State.reg, State.keyDown]

theorem keyPress_frame (s : State) (k : Nibble) : SameExcept [.keys, .regs, .mode] s (s.keyPress k) := by
  by_cases h : s.mode = .waitKey
  · rw [State.keyPress_of_waitKey h]
    intro p hp
    cases p <;> simp_all [Part.same]
  · rw [State.keyPress_of_not_waitKey h]
    exact (setKey_frame s k true).mono (by simp)

theorem State.keyDown_keyPress (s : State) (k j : Nibble) :
    (s.keyPress k).keyDown j = if j = k then true else s.keyDown j := by
  rw [← State.keyDown_setKey]
  by_cases h : s.mode = .waitKey
  · rw [State.keyPress_of_waitKey h]
    rfl
  · rw [State.keyPress_of_not_waitKey h]

theorem loadImage_frame (s : State) (m : Memory) (hglyphs : m.glyphs = s.mem.glyphs) :
    SameExcept [.mem, .loadOpen] s { s with mem := m, loadOpen := false } := by
  intro p hp
  cases p <;> simp_all [Part.same, State.reg, State.keyDown]

/-- A STEP closes LOAD when it begins, and no body opens it again. -/
theorem step_loadOpen {s t : State} (h : step s = .next t) : t.loadOpen = false := by
  rcases step_cases s with ⟨-, hs⟩ | ⟨-, hs⟩ | ⟨-, -, hs⟩ | ⟨i, u, -, hexec, hs⟩ <;> rw [hs] at h <;> cases h
  · rfl
  · rfl
  · rfl
  · rw [State.endCycle_loadOpen]
    exact exec_frame hexec .loadOpen (by cases i <;> simp [bodyChanges])

theorem keyPress_loadOpen (s : State) (k : Nibble) : (s.keyPress k).loadOpen = s.loadOpen :=
  keyPress_frame s k .loadOpen (by simp)

theorem hostLoad_of_closed {s : State} (image : List Byte) (h : s.loadOpen = false) :
    hostOp (.load image) s = .refused .loadNotAdmitted := by
  simp [hostOp, hostLoad, h]

theorem hostLoad_of_fits {s : State} {image : List Byte} (h : s.loadOpen = true) (hfits : 512 + image.length ≤ 4096) :
    hostOp (.load image) s = .done { s with mem := loadBytes s.mem 512 image, loadOpen := false } := by
  simp only [hostOp, hostLoad, h, if_true]
  exact if_neg (by omega)

theorem hostLoad_of_too_long {s : State} {image : List Byte} (h : s.loadOpen = true)
    (hlong : 4096 < 512 + image.length) : hostOp (.load image) s = .loadFailure s := by
  simp only [hostOp, hostLoad, h, if_true]
  exact if_pos hlong

/-- A LOAD that is done closes its place. -/
theorem hostLoad_done_loadOpen {s t : State} {image : List Byte} (h : hostOp (.load image) s = .done t) :
    t.loadOpen = false := by
  rcases hopen : s.loadOpen with _ | _
  · rw [hostLoad_of_closed image hopen] at h
    cases h
  · by_cases hfits : 512 + image.length ≤ 4096
    · rw [hostLoad_of_fits hopen hfits] at h
      cases h
      rfl
    · rw [hostLoad_of_too_long hopen (by omega)] at h
      cases h

end Sys2Proof.Machine
end

section
/-! The host's operations (spec/10_state.md R40). -/

namespace Sys2Proof.Machine

/-- Settles O51: both events set the level, and a press also writes x[wait_x] and returns to RUN exactly in WAIT_KEY. -/
theorem keyEvents : Obligations.KeyEvents := by
  unfold Obligations.KeyEvents
  intro k s
  refine ⟨⟨_, rfl, s.keyDown_keyPress k, fun hm => ⟨?_, fun r => ?_, keyPress_frame s k⟩, fun hm => ?_⟩,
    ⟨_, rfl, fun j => s.keyDown_setKey k j false, setKey_frame s k false⟩⟩
  · rw [State.keyPress_of_waitKey hm]
  · have := k.isLt
    rw [State.reg_keyPress, apply_ite BitVec.toNat, BitVec.toNat_setWidth, Nat.mod_eq_of_lt (by omega)]
    simp only [hm, true_and]
  · rw [State.keyPress_of_not_waitKey hm]
    exact setKey_frame s k true

/-- Settles O52: the operation is one update of `dirty`, in every mode. -/
theorem dirtyClear : Obligations.DirtyClear := by
  unfold Obligations.DirtyClear
  exact fun s => ⟨_, rfl, rfl, dirtyClear_frame s⟩

/-- Settles O53: every element is written out in `State.resetWith`, and with nothing listed memory reads as GLYPHS and
0. -/
theorem resetLeavesTheTabledState : Obligations.ResetLeavesTheTabledState := by
  unfold Obligations.ResetLeavesTheTabledState
  refine ⟨fun s => rfl, ?_⟩
  rintro g t rfl
  refine ⟨fun a ha => ?_, fun a ha _ => ?_, fun r => ?_, rfl, rfl, fun j hj => ?_, rfl, rfl, rfl, fun k => ?_,
    fun cx cy _ _ => framePixel_clear cx cy, rfl, rfl, rfl, rfl, rfl, rfl, rfl⟩
  · rw [resetWith_read, dif_pos ha]
  · rw [resetWith_read, dif_neg (by omega)]
  · exact Vector.getElem_replicate _
  · exact Vector.getElem_replicate _
  · exact Vector.getElem_replicate _

/-- Settles O54: an image that fits is copied byte by byte from 512, and one that does not leaves the state. -/
theorem loadCopiesTheImage : Obligations.LoadCopiesTheImage := by
  unfold Obligations.LoadCopiesTheImage
  refine fun s image hw hopen => ⟨fun hfits => ?_, fun hlong => hostLoad_of_too_long hopen hlong⟩
  exact ⟨_, hostLoad_of_fits hopen hfits, fun k hk => loadBytes_inside hw 512 image hk hfits,
    fun a ha => loadBytes_outside _ _ _ ha, loadImage_frame s _ (loadBytes_glyphs _ _ _)⟩

/-- Settles O55: STEP and a LOAD that is done close the place, RESET opens it, and no other operation touches it. -/
theorem loadIsRefusedElsewhere : Obligations.LoadIsRefusedElsewhere := by
  unfold Obligations.LoadIsRefusedElsewhere
  refine ⟨fun s image h => hostLoad_of_closed image h, fun s t h => step_loadOpen h,
    fun s t image h => hostLoad_done_loadOpen h, fun s t h => ?_, fun s t op hop h hclosed => ?_⟩
  · cases h
    rfl
  · cases op with
    | reset => exact absurd rfl hop
    | load image => exact hostLoad_done_loadOpen h
    | step => exact step_loadOpen (step_of_hostOp (.inl h))
    | keyPress k =>
      cases h
      rw [keyPress_loadOpen, hclosed]
    | keyRelease k =>
      cases h
      exact hclosed
    | dirtyClear =>
      cases h
      exact hclosed

theorem hostRead_faultCode {s : State} {c : FaultCode} (h : s.faultCode = c) :
    hostRead .faultCode s = .ok (.code c.code) := by
  rw [hostRead, h]

/-- Settles O56: a READ is its element's value, checked for a byte's address and refused for a stack entry. -/
theorem readReturnsTheValue : Obligations.ReadReturnsTheValue := by
  unfold Obligations.ReadReturnsTheValue
  intro s
  exact ⟨fun a ha => if_neg (by omega), fun a ha => if_pos ha, fun _ => rfl, rfl, rfl, fun _ => rfl, rfl, rfl, rfl,
    fun _ => rfl, fun _ _ => rfl, rfl, rfl, rfl, rfl, rfl, hostRead_faultCode, hostRead_faultCode, hostRead_faultCode,
    hostRead_faultCode, hostRead_faultCode, hostRead_faultCode, hostRead_faultCode⟩

end Sys2Proof.Machine
end

section
/-! The stack is observed through RET only (spec/10_state.md R28). -/

namespace Sys2Proof.Machine

theorem hostRead_withStack (target : ReadTarget) (s : State) (v : Vector Word 16) :
    hostRead target { s with stack := v } = hostRead target s := by
  cases target <;> rfl

theorem withStackAndPc_frame (t : State) (w : Vector Word 16) (p : Word) :
    SameExcept [.stack, .pc] t { t with stack := w, pc := p } := by
  intro q hq
  cases q <;> simp_all [Part.same, State.reg, State.keyDown]

/-- The end of a cycle reads neither the stack nor the pc. -/
theorem endCycle_withStackAndPc (t : State) (w : Vector Word 16) (p : Word) :
    { t with stack := w, pc := p }.endCycle = { t.endCycle with stack := w, pc := p } := by
  rw [endCycle_eq, endCycle_eq]

/-- Settles O60: no READ reads the stack; a STEP without a body does not either, and a body only for the pc of a RET. -/
theorem stackIsObservedOnlyThroughReturn : Obligations.StackIsObservedOnlyThroughReturn := by
  unfold Obligations.StackIsObservedOnlyThroughReturn
  refine fun s entries => ⟨fun target => hostRead_withStack target s entries, fun t hstep => ?_⟩
  rcases step_cases s with ⟨hm, h⟩ | ⟨hm, h⟩ | ⟨hm, hp, h⟩ | ⟨i, u, hf, hexec, h⟩ <;> rw [h] at hstep <;> cases hstep
  · exact ⟨_, step_waitKey hm, withStackAndPc_frame s.beginStep entries s.pc, fun _ => rfl⟩
  · exact ⟨_, step_fault hm, withStackAndPc_frame s.beginStep entries s.pc, fun _ => rfl⟩
  · exact ⟨_, step_fetchFails hm hp, withStackAndPc_frame _ entries s.pc, fun _ => rfl⟩
  · obtain ⟨w, p, hexec', hpc⟩ := exec_withStack entries hexec
    obtain ⟨u', hu', hstep'⟩ := step_of_fetches (s := { s with stack := entries }) (i := i) hf
    cases hu'.symm.trans hexec'
    rw [endCycle_withStackAndPc] at hstep'
    refine ⟨_, hstep', withStackAndPc_frame _ w p, fun hret => ?_⟩
    rw [State.endCycle_pc]
    exact hpc fun hi => hret (hi ▸ hf)

end Sys2Proof.Machine
end
